-- ==== Sys2Proof/Word.lean ====
section
/-! DEFINITION. The word types of the SCT2 block (00_scope.md R7, R8). All values are unsigned. -/

namespace Sys2Proof

/-- A register, a command word, an entry of `PERM` or `INV` (R7: 32 bits). -/
abbrev Word := BitVec 32

/-- A byte of `SRC` or `DST` (R7: 8 bits, unsigned). -/
abbrev Byte := BitVec 8

/-- A code unit of a key string (R7, R61: 16 bits; host driver only). -/
abbrev CodeUnit := BitVec 16

end Sys2Proof
end

