-- ==== Sys2Proof/Syntax.lean ====
section
/-! DEFINITION. The syntax: the nine commands (30_encoding.md R50, R51), the host's transactions (20_memory.md R33), the
host-script lines (R56) and the driver's request (00_scope.md section 6). -/

namespace Sys2Proof

/-- A command: one constructor per row of spec/opcode_table.json, with the operands `decode` of R51 gives it. The ignored
bits (`DIR` of `XOR`, `ALPHA` of the shuffles: R53) are no operand: words that differ only in one are the same command. -/
inductive Instr where
  | xor (alpha : Bool)
  | addE (alpha : Bool)
  | addD (alpha : Bool)
  | shufE
  | shufD
  | ginit
  | gnext
  | pbuild
  | pinv
deriving DecidableEq, Repr

/-- The cause of a rejection (60_exceptions.md R131). -/
inductive ErrorCause where
  | eOp
  | eLen4
  | eCap
  | ePerm
deriving DecidableEq, Repr

/-- The five address spaces (20_memory.md R30). -/
inductive Space where
  | reg
  | src
  | dst
  | perm
  | inv
deriving DecidableEq, Repr

/-- The seven registers (10_state.md R10). -/
inductive RegName where
  | cmd
  | status
  | seed
  | buflen
  | pn
  | x
  | cap
deriving DecidableEq, Repr

/-- A host transaction (20_memory.md R33): those of its table, on any space and at any offset, and the 16-bit accesses
that the rule names as not provided (log entry 15). Which of them the block provides is `Machine.provided`. -/
inductive Transaction where
  | rd32 (space : Space) (a : Nat)
  | wr32 (space : Space) (a : Nat) (w : Word)
  | rd8 (space : Space) (a : Nat)
  | wr8 (space : Space) (a : Nat) (b : Byte)
  | rde (space : Space) (i : Nat)
  | wre (space : Space) (i : Nat) (w : Word)
  | rd16 (space : Space) (a : Nat)
  | wr16 (space : Space) (a : Nat) (h : BitVec 16)
deriving DecidableEq, Repr

/-- What a host read returns. -/
inductive Reply where
  | word (w : Word)
  | byte (b : Byte)
deriving DecidableEq, Repr

/-- One event of the outside world (45_transform_engine.md R123): a host transaction, with whether the block, if it is
busy after it, takes its turn before the next event (log entry 5); or reset (70_reset_and_hazards.md R150). -/
inductive Event where
  | host (t : Transaction) (blockRuns : Bool)
  | reset
deriving DecidableEq, Repr

/-- One line of a host script (30_encoding.md R56). -/
inductive ScriptLine where
  | wr (r : RegName) (v : Word)
  | rd (r : RegName)
  | ldb (space : Space) (offset : Nat) (bytes : List Byte)
  | lde (space : Space) (index : Nat) (entries : List Word)
  | command (i : Instr)
  | cmdw (w : Word)
  | wait
  | copy (len : Nat)
deriving DecidableEq, Repr

/-- The operation of a request: SCT2's three, and any other value a caller may hand over (45_transform_engine.md R117,
check c1 "unsupported operation value"). -/
inductive Operation where
  | xor
  | add
  | shuffle
  | unsupported (value : Nat)
deriving DecidableEq, Repr

/-- The direction of a request. -/
inductive Direction where
  | encrypt
  | decrypt
deriving DecidableEq, Repr

/-- A key: a finite sequence of code units, possibly empty (40_seed_derivation.md R61). -/
abbrev Key := List CodeUnit

/-- SCT2's TransformRequest (R117). -/
structure Request where
  operation : Operation
  direction : Direction
  key : Key
  includeAlpha : Bool
deriving DecidableEq, Repr

/-- The driver's causes of InvalidInput (60_exceptions.md R136). -/
inductive InvalidCause where
  | unsupportedOperation
  | emptyKey
  | lengthNotMultipleOf4
  | tooLarge
  | notAPermutation
deriving DecidableEq, Repr

end Sys2Proof
end

