-- ==== Sys2Proof/WellFormed.lean ====
section
/-! DEFINITION. Well-formedness of the syntax: commands (30_encoding.md R55) and host-script lines (R56). -/

namespace Sys2Proof

/-- R55: a command's only operands are one-bit flags "used as they stand", so every term is well formed. -/
def Instr.wf : Instr → Bool
  | .xor _ => true
  | .addE _ => true
  | .addD _ => true
  | .shufE => true
  | .shufD => true
  | .ginit => true
  | .gnext => true
  | .pbuild => true
  | .pinv => true

/-- R56: which registers, spaces and operands a script line may name: `WR` names `SEED`, `BUFLEN` or `PN`; `LDB` loads
`SRC` or `DST`; `LDE` loads `PERM` or `INV`. (`A` on another command than `XOR`, `ADD.E`, `ADD.D` is no term of `Instr`.) -/
def ScriptLine.wf : ScriptLine → Bool
  | .wr .seed _ => true
  | .wr .buflen _ => true
  | .wr .pn _ => true
  | .wr .cmd _ => false
  | .wr .status _ => false
  | .wr .x _ => false
  | .wr .cap _ => false
  | .rd _ => true
  | .ldb .src _ _ => true
  | .ldb .dst _ _ => true
  | .ldb .reg _ _ => false
  | .ldb .perm _ _ => false
  | .ldb .inv _ _ => false
  | .lde .perm _ _ => true
  | .lde .inv _ _ => true
  | .lde .reg _ _ => false
  | .lde .src _ _ => false
  | .lde .dst _ _ => false
  | .command i => i.wf
  | .cmdw _ => true
  | .wait => true
  | .copy _ => true

end Sys2Proof
end

