-- ==== Sys2Proof/Decode.lean ====
section
/-! DEFINITION. The command word: its fields (30_encoding.md R49), `decode` (R51), total on 32-bit words and rejecting by
name, and the encoder written from the same table (R50, R56). -/

namespace Sys2Proof

/-- Bits 3:0, the operation (R49). -/
def Word.op (w : Word) : BitVec 4 := w.extractLsb' 0 4

/-- Bit 4, the direction: 0 = ENCRYPT, 1 = DECRYPT (R49). -/
def Word.dir (w : Word) : Bool := w.getLsbD 4

/-- Bit 5, SCT2's includeAlpha (R49). -/
def Word.alpha (w : Word) : Bool := w.getLsbD 5

/-- Bits 31:6, reserved, must be 0 (R49). -/
def Word.rsv (w : Word) : BitVec 26 := w.extractLsb' 6 26

/-- Why a word is `Illegal` (60_exceptions.md R132): a non-zero `RSV`, a reserved `OP`, or a non-zero `DIR` or `ALPHA` on
a command that requires 0. -/
inductive IllegalWord where
  | reservedBits
  | reservedOp
  | flagMustBeZero
deriving DecidableEq, Repr

/-- The result of `decode` (R51): a command or `Illegal`. -/
inductive Decoded where
  | legal (i : Instr)
  | illegal (why : IllegalWord)
deriving DecidableEq, Repr

/-- The commands that require `DIR = 0` and `ALPHA = 0` (R50, R53). -/
def decodePlain (w : Word) (i : Instr) : Decoded :=
  if w.dir = false ∧ w.alpha = false then .legal i else .illegal .flagMustBeZero

/-- `decode(w)` of R51, case by case. -/
def decode (w : Word) : Decoded :=
  if w.rsv ≠ 0 then .illegal .reservedBits
  else if w.op = 0x1 then .legal (.xor w.alpha)
  else if w.op = 0x2 then (if w.dir then .legal (.addD w.alpha) else .legal (.addE w.alpha))
  else if w.op = 0x3 then (if w.dir then .legal .shufD else .legal .shufE)
  else if w.op = 0x8 then decodePlain w .ginit
  else if w.op = 0x9 then decodePlain w .gnext
  else if w.op = 0xA then decodePlain w .pbuild
  else if w.op = 0xB then decodePlain w .pinv
  else .illegal .reservedOp

/-- A format `C` word from its fields, `RSV` = 0 (R49). -/
def encodeFields (op : BitVec 4) (dir alpha : Bool) : Word :=
  (0#26 ++ BitVec.ofBool alpha ++ BitVec.ofBool dir ++ op : BitVec (26 + 1 + 1 + 4))

/-- The word a mnemonic line writes (R56): the ignored bits are 0. -/
def encode : Instr → Word
  | .xor alpha => encodeFields 0x1 false alpha
  | .addE alpha => encodeFields 0x2 false alpha
  | .addD alpha => encodeFields 0x2 true alpha
  | .shufE => encodeFields 0x3 false false
  | .shufD => encodeFields 0x3 true false
  | .ginit => encodeFields 0x8 false false
  | .gnext => encodeFields 0x9 false false
  | .pbuild => encodeFields 0xA false false
  | .pinv => encodeFields 0xB false false

/-- Every legal word of a command, the ignored bits at both values (the list of R51). -/
def legalWords : Instr → List Word
  | .xor false => [0x01, 0x11]
  | .xor true => [0x21, 0x31]
  | .addE false => [0x02]
  | .addE true => [0x22]
  | .addD false => [0x12]
  | .addD true => [0x32]
  | .shufE => [0x03, 0x23]
  | .shufD => [0x13, 0x33]
  | .ginit => [0x08]
  | .gnext => [0x09]
  | .pbuild => [0x0A]
  | .pinv => [0x0B]

/-- The command the decoder reads from a word as an Option. -/
def Decoded.instr? : Decoded → Option Instr
  | .legal i => some i
  | .illegal _ => none

/-- The command a table row's word stands for: every row is one 32-bit word (R48), its bits above `nbits` 0; a longer word is
no command. -/
def decodeTableWord (nbits w : Nat) : Option Instr :=
  if nbits ≤ 32 then (decode (BitVec.ofNat 32 (w % 2 ^ nbits))).instr? else none

end Sys2Proof
end

