-- ==== Sys2Proof/Config.lean ====
section
/-! DEFINITION. What an instance fixes and what the spec leaves open: the parameter `MAXPIX` (00_scope.md R7,
93_implementation_defined.md U9) and the free values of memory nothing has written since reset (U1). None of them has a
body: no proof can see a value. -/

namespace Sys2Proof

/-- A capacity the spec allows: `1 <= MAXPIX <= 2^30 - 1` (R7). -/
abbrev legalCapacity (n : Nat) : Prop := 1 ≤ n ∧ n ≤ 2 ^ 30 - 1

/-- A free number, from which `maxPix` picks a legal capacity; every legal capacity is picked by some number. -/
opaque Config.capacityPick : Nat

/-- `MAXPIX`, the OPEN parameter (R7, U9; log entry 2): some number from 1 to 2^30 - 1. -/
def Config.maxPix : Nat := Config.capacityPick % (2 ^ 30 - 1) + 1

/-- The free value of byte `a` of `SRC` since the `resets`-th reset, until something writes it (R26, U1; log entry 3). -/
opaque Config.powerUpSrc (resets a : Nat) : Byte

/-- The free value of byte `a` of `DST` since the `resets`-th reset, until something writes it (R26, U1; log entry 3). -/
opaque Config.powerUpDst (resets a : Nat) : Byte

/-- The free value of entry `i` of `PERM` since the `resets`-th reset, until something writes it (R26, U1; log entry 3). -/
opaque Config.powerUpPerm (resets i : Nat) : Word

/-- The free value of entry `i` of `INV` since the `resets`-th reset, until something writes it (R26, U1; log entry 3). -/
opaque Config.powerUpInv (resets i : Nat) : Word

end Sys2Proof
end

