-- ==== Sys2Proof/Machine/State.lean ====
section
/-! DEFINITION. The machine's state (10_state.md), its stops, and reset (R26). -/

namespace Sys2Proof.Machine

/-- A memory: (address, value) pairs for the locations something has written since reset, addresses strictly rising. An
unlisted address has NO value here (R26 "a model gives each such byte or entry no value until something writes it"). -/
abbrev Memory (α : Type) := List (Nat × α)

/-- The canonical form: addresses strictly rising, so equal memories are equal lists. -/
abbrev Memory.wf {α : Type} (m : Memory α) : Prop := m.Pairwise (fun p q => p.1 < q.1)

/-- Why the machine stops with a fault. The spec's block has none (60_exceptions.md R130); this one is raised in no state
that satisfies `Inv`. -/
inductive Fault where
  /-- Raised by a block turn when `BUSY = 1` and `CMD` holds an illegal word: no run reaches such a state (R112: "`BUSY` is
  never 1 for a rejected command"). Safe (log entry 13). -/
  | busyWithoutCommand
deriving DecidableEq, Repr

/-- Why a step has no meaning. -/
inductive Refusal where
  /-- Raised by `exec` for an instruction without a meaning: none is left. Safe. -/
  | notModelled (mnemonic : String)
  /-- Raised by a host transaction other than a read of `STATUS` from the issue of an accepted command until a read of
  `STATUS` returns `BUSY = 0` (70_reset_and_hazards.md R153, 93_implementation_defined.md U2). Safe (log entry 8). -/
  | hostWhileBusy
  /-- Raised by a host transaction outside the table of 20_memory.md R33 (U5). Safe. -/
  | notProvided
  /-- Raised by a 32-bit access to `REG` offsets 0x1C to 0xFF (U6). Safe. -/
  | reservedRegister
deriving DecidableEq, Repr

/-- The state of one SCT2 block instance (10_state.md), and four fields of the model's own. -/
structure State where
  /-- R11: the last command word the host wrote. -/
  cmd : Word
  /-- R12: `BUSY` 0, `DONE` 1, `ERR` 2, `ECODE` 11:8. -/
  status : Word
  /-- R13: the seed of the next command. -/
  seed : Word
  /-- R14: the byte length of the pixel buffer. -/
  buflen : Word
  /-- R15: the permutation length of `PBUILD` and `PINV`. -/
  pn : Word
  /-- R16: the generator state. -/
  x : Word
  /-- R17: reads as `MAXPIX`; nothing writes it (log entry 2). -/
  cap : Word
  /-- R19: the source pixel memory, `4 × MAXPIX` bytes. -/
  src : Memory Byte
  /-- R20: the destination pixel memory, `4 × MAXPIX` bytes. -/
  dst : Memory Byte
  /-- R21: the permutation memory, `MAXPIX` entries. -/
  perm : Memory Word
  /-- R22: the inverse-permutation memory, `MAXPIX` entries. -/
  inv : Memory Word
  /-- The model's own: the outside world's events still to come, first first (log entries 1, 5). -/
  events : List Event
  /-- The model's own: what host reads have returned, oldest first (log entry 6). -/
  replies : List Reply
  /-- The model's own: how many resets there were; selects the free values of unwritten memory (log entry 4). -/
  resets : Nat
  /-- The model's own: an accepted command was issued and no read of `STATUS` has returned `BUSY = 0` since (R153; log entry
  8). -/
  unread : Bool
deriving DecidableEq, Repr

/-- R26: the state after reset of an instance with capacity `maxPix`. -/
def State.resetWith (maxPix : Nat) : State where
  cmd := 0
  status := 0
  seed := 0
  buflen := 0
  pn := 0
  x := 0
  cap := BitVec.ofNat 32 maxPix
  src := []
  dst := []
  perm := []
  inv := []
  events := []
  replies := []
  resets := 0
  unread := false

/-- R26: the state after reset, `MAXPIX` being the open parameter. -/
def State.reset : State := State.resetWith Config.maxPix

end Sys2Proof.Machine
end

