-- ==== Sys2Proof/Machine/Flags.lean ====
section
/-! DEFINITION. The fields of `STATUS` (10_state.md R12) and its four conditions; the error codes (60_exceptions.md R131). -/

namespace Sys2Proof.Machine

/-- The code of a cause (R131). -/
def errorCode : ErrorCause → BitVec 4
  | .eOp => 0x1
  | .eLen4 => 0x2
  | .eCap => 0x3
  | .ePerm => 0x4

/-- `STATUS` from its fields; the reserved bits read 0 (R12). -/
def statusWord (busy done err : Bool) (ecode : BitVec 4) : Word :=
  (0#20 ++ ecode ++ 0#5 ++ BitVec.ofBool err ++ BitVec.ofBool done ++ BitVec.ofBool busy :
    BitVec (20 + 4 + 5 + 1 + 1 + 1))

/-- *Idle since reset* (R12). -/
def statusIdle : Word := statusWord false false false 0

/-- *Busy* (R12, R113). -/
def statusBusy : Word := statusWord true false false 0

/-- *Done* (R12, R114). -/
def statusDone : Word := statusWord false true false 0

/-- *Rejected* with a cause (R12, R112). -/
def statusRejected (e : ErrorCause) : Word := statusWord false false true (errorCode e)

/-- `STATUS.BUSY`, bit 0. -/
def statusBusyBit (w : Word) : Bool := w.getLsbD 0

/-- `STATUS.DONE`, bit 1. -/
def statusDoneBit (w : Word) : Bool := w.getLsbD 1

/-- `STATUS.ERR`, bit 2. -/
def statusErrBit (w : Word) : Bool := w.getLsbD 2

/-- `STATUS.ECODE`, bits 11:8. -/
def statusEcode (w : Word) : BitVec 4 := w.extractLsb' 8 4

/-- `STATUS.BUSY` of a state. -/
def State.busy (s : State) : Bool := statusBusyBit s.status

/-- The host may only read `STATUS`: "from the issue of an accepted command until a read of `STATUS` returns `BUSY = 0`"
(70_reset_and_hazards.md R153, 45_transform_engine.md R123). -/
def State.held (s : State) : Bool := s.busy || s.unread

end Sys2Proof.Machine
end

