-- ==== Sys2Proof/Machine/Operands.lean ====
section
/-! DEFINITION. The implicit operands of the commands (30_encoding.md R55) and the 32-bit view of a pixel (20_memory.md R32). -/

namespace Sys2Proof.Machine

/-- `key8 = SEED[7:0]` (43_byte_transform.md R90). -/
def State.key8 (s : State) : Byte := s.seed.extractLsb' 0 8

/-- The pixel count of a transform, `BUFLEN / 4` (R14). -/
def State.pixelCount (s : State) : Nat := s.buflen.toNat / 4

/-- `MAXPIX` as `CAP` holds it (R17). -/
def State.maxPix (s : State) : Nat := s.cap.toNat

/-- The byte `k` of a 32-bit word, `k = 0` being bits 7:0 (R32). -/
def byteOfWord (w : Word) (k : Nat) : Byte := w.extractLsb' (8 * k) 8

/-- R32: `w = {B[a+3], B[a+2], B[a+1], B[a]}`. -/
def wordOfBytes (b0 b1 b2 b3 : Byte) : Word :=
  (b3 ++ b2 ++ b1 ++ b0 : BitVec (8 + 8 + 8 + 8))

/-- The byte offset of a register in `REG` (R10). -/
def regOffset : RegName → Nat
  | .cmd => 0x00
  | .status => 0x04
  | .seed => 0x08
  | .buflen => 0x0C
  | .pn => 0x10
  | .x => 0x14
  | .cap => 0x18

/-- The register at a byte offset of `REG` (R10); none at any other offset. -/
def regAt (a : Nat) : Option RegName :=
  if a = 0x00 then some .cmd
  else if a = 0x04 then some .status
  else if a = 0x08 then some .seed
  else if a = 0x0C then some .buflen
  else if a = 0x10 then some .pn
  else if a = 0x14 then some .x
  else if a = 0x18 then some .cap
  else none

/-- The value a host read of a register returns (R10, R36: no side effect). -/
def State.readReg (s : State) : RegName → Word
  | .cmd => s.cmd
  | .status => s.status
  | .seed => s.seed
  | .buflen => s.buflen
  | .pn => s.pn
  | .x => s.x
  | .cap => s.cap

end Sys2Proof.Machine
end

