-- ==== Sys2Proof/Machine/Ops.lean ====
section
/-! DEFINITION. The shared operations: one memory location read and written, the generator's two transitions (41_generator.md
R72), the procedures `build`, `invert`, `bytepass` and `gather`, and the life of a command: rejection (the machine's one
exception, 60_exceptions.md R139), acceptance (which is also the return from it, R140) and completion. -/

namespace Sys2Proof.Machine

/-! ### Memory -/

/-- What a memory holds at an address; none where nothing has been written since reset. -/
def Memory.read {α : Type} : Memory α → Nat → Option α
  | [], _ => none
  | (b, v) :: m, a => if a = b then some v else Memory.read m a

/-- Writes one location and keeps the canonical form. -/
def Memory.write {α : Type} : Memory α → Nat → α → Memory α
  | [], a, v => [(a, v)]
  | (b, u) :: m, a, v =>
    if a < b then (a, v) :: (b, u) :: m
    else if a = b then (a, v) :: m
    else (b, u) :: Memory.write m a v

/-- `SRC[a]`; a free value where nothing has been written since reset (U1). -/
def State.readSrc (s : State) (a : Nat) : Byte := (Memory.read s.src a).getD (Config.powerUpSrc s.resets a)

/-- `DST[a]`; a free value where nothing has been written since reset (U1). -/
def State.readDst (s : State) (a : Nat) : Byte := (Memory.read s.dst a).getD (Config.powerUpDst s.resets a)

/-- `PERM[i]`; a free value where nothing has been written since reset (U1). -/
def State.readPerm (s : State) (i : Nat) : Word := (Memory.read s.perm i).getD (Config.powerUpPerm s.resets i)

/-- `INV[i]`; a free value where nothing has been written since reset (U1). -/
def State.readInv (s : State) (i : Nat) : Word := (Memory.read s.inv i).getD (Config.powerUpInv s.resets i)

/-- `SRC[a] <- b` (a host write: no command writes `SRC`, R19). -/
def State.writeSrc (s : State) (a : Nat) (b : Byte) : State := { s with src := Memory.write s.src a b }

/-- `DST[a] <- b`. -/
def State.writeDst (s : State) (a : Nat) (b : Byte) : State := { s with dst := Memory.write s.dst a b }

/-- `PERM[i] <- w`. -/
def State.writePerm (s : State) (i : Nat) (w : Word) : State := { s with perm := Memory.write s.perm i w }

/-- `INV[i] <- w`. -/
def State.writeInv (s : State) (i : Nat) (w : Word) : State := { s with inv := Memory.write s.inv i w }

/-! ### The generator (unit KG) -/

/-- The xorshift32 step; every intermediate is 32 bits (41_generator.md R70, R71). -/
def xs32 (x : Word) : Word :=
  let a := x ^^^ (x <<< 13)
  let b := a ^^^ (a >>> 17)
  b ^^^ (b <<< 5)

/-- The re-seeding `X <- SEED` (R72). -/
def State.reseed (s : State) : State := { s with x := s.seed }

/-- The draw `X <- xs32(X)`; the value drawn is the new `X` (R72). -/
def State.draw (s : State) : State := { s with x := xs32 s.x }

/-! ### Permutations (unit PB) -/

/-- `for j in [0, n): PERM[j] <- j` (42_permutation.md R80). -/
def identityPass : Nat → State → State
  | 0, s => s
  | n + 1, s => (identityPass n s).writePerm n (BitVec.ofNat 32 n)

/-- `swap(PERM[i], PERM[r])`; nothing happens when `i = r` (00_scope.md R9). -/
def State.swapPerm (s : State) (i r : Nat) : State :=
  if i = r then s else (s.writePerm i (s.readPerm r)).writePerm r (s.readPerm i)

/-- One iteration of the Fisher-Yates loop at index `i`: draw `v`, `r <- v mod (i + 1)`, swap (R80). -/
def fisherYatesStep (i : Nat) (s : State) : State :=
  let d := s.draw
  d.swapPerm i (d.x.toNat % (i + 1))

/-- The Fisher-Yates loop `for i from k down to 1` (R80). -/
def fisherYates : Nat → State → State
  | 0, s => s
  | k + 1, s => fisherYates k (fisherYatesStep (k + 1) s)

/-- `build(n)` (R80): re-seed, identity, `for i from n-1 down to 1`. -/
def build (n : Nat) (s : State) : State := fisherYates (n - 1) (identityPass n s.reseed)

/-- `invert(n)` (R85): `for i in [0, n): INV[PERM[i]] <- i`, ascending. -/
def invert : Nat → State → State
  | 0, s => s
  | n + 1, s =>
    let t := invert n s
    t.writeInv (t.readPerm n).toNat (BitVec.ofNat 32 n)

/-! ### Byte pass (unit BT) -/

/-- One pixel of the byte pass: R, G, B through `f`, the alpha byte through `f` or copied (43_byte_transform.md R90). -/
def bytePixel (f : Byte → Byte) (alpha : Bool) (p : Nat) (s : State) : State :=
  let s := s.writeDst (4 * p + 0) (f (s.readSrc (4 * p + 0)))
  let s := s.writeDst (4 * p + 1) (f (s.readSrc (4 * p + 1)))
  let s := s.writeDst (4 * p + 2) (f (s.readSrc (4 * p + 2)))
  if alpha then s.writeDst (4 * p + 3) (f (s.readSrc (4 * p + 3)))
  else s.writeDst (4 * p + 3) (s.readSrc (4 * p + 3))

/-- The byte pass over pixels `0 .. n-1` (R90); ascending, which nothing can observe (D36; log entry 18). -/
def bytePass (f : Byte → Byte) (alpha : Bool) : Nat → State → State
  | 0, s => s
  | n + 1, s => bytePixel f alpha n (bytePass f alpha n s)

/-! ### Gather (unit PS) -/

/-- `DST[4d + c] <- SRC[4m + c]` for `c` in `[0, 4)` (44_pixel_shuffle.md R100). -/
def copyPixel (d m : Nat) (s : State) : State :=
  let s := s.writeDst (4 * d + 0) (s.readSrc (4 * m + 0))
  let s := s.writeDst (4 * d + 1) (s.readSrc (4 * m + 1))
  let s := s.writeDst (4 * d + 2) (s.readSrc (4 * m + 2))
  s.writeDst (4 * d + 3) (s.readSrc (4 * m + 3))

/-- `gather(PERM, n)` (R100); ascending, which nothing can observe (D36; log entry 18). -/
def gatherPerm : Nat → State → State
  | 0, s => s
  | n + 1, s =>
    let t := gatherPerm n s
    copyPixel n (t.readPerm n).toNat t

/-- `gather(INV, n)` (R100). -/
def gatherInv : Nat → State → State
  | 0, s => s
  | n + 1, s =>
    let t := gatherInv n s
    copyPixel n (t.readInv n).toNat t

/-! ### The checks at issue -/

/-- The check of the five transform commands: length, then capacity (45_transform_engine.md R111). -/
def checkTransform (s : State) : Option ErrorCause :=
  if s.buflen.toNat % 4 ≠ 0 then some .eLen4
  else if s.buflen.toNat / 4 > s.maxPix then some .eCap
  else none

/-- The check of `PBUILD`: capacity (R111). -/
def checkLength (s : State) : Option ErrorCause :=
  if s.pn.toNat > s.maxPix then some .eCap else none

/-- "there is an `i` in `[0, n)` with `PERM[i] >= n`" (R111). -/
def permOutOfRange (n : Nat) (s : State) : Bool := (List.range n).any (fun i => decide (n ≤ (s.readPerm i).toNat))

/-- The check of `PINV`: capacity, then the entries (R111). -/
def checkPinv (s : State) : Option ErrorCause :=
  if s.pn.toNat > s.maxPix then some .eCap
  else if permOutOfRange s.pn.toNat s then some .ePerm
  else none

/-! ### The life of a command (unit TE) -/

/-- `reject(e)`, the machine's one exception: `STATUS` becomes *rejected* with the cause and nothing else changes (R112;
60_exceptions.md R139: it saves nothing and goes nowhere). `CMD` was written at issue. -/
def State.reject (s : State) (e : ErrorCause) : State := { s with status := statusRejected e }

/-- `accept(c)`: `STATUS` becomes *busy* (R113), and the host owes a read of `STATUS` that returns `BUSY = 0` (R153). Leaving
the rejected state is this: the next issue overwrites `STATUS` (R140: "There is no return instruction and nothing to
restore"). -/
def State.accept (s : State) : State := { s with status := statusBusy, unread := true }

/-- Completion: `STATUS` becomes *done*, after all of the command's other writes (R114). -/
def State.complete (s : State) : State := { s with status := statusDone }

/-- A whole command on the state at issue: rejected with the cause its check gives, or accepted, its procedure performed,
and completed (R110, R112 to R114; log entry 12). -/
def runCommand (check : Option ErrorCause) (procedure : State → State) (s : State) : Host.Outcome State Fault Refusal :=
  match check with
  | some e => .next (s.reject e)
  | none => .next (procedure s.accept).complete

end Sys2Proof.Machine
end

