-- ==== Sys2Proof/Machine/Bus.lean ====
section
/-! DEFINITION. The host's side of the block: which transactions it provides (20_memory.md R33), what each does (R32, R36,
10_state.md R10 to R17), and the issue of a command (45_transform_engine.md R110 to R112). -/

namespace Sys2Proof.Machine

/-! ### Issue -/

/-- `check(c)`: the first cause that applies, or none (R111). -/
def check : Instr → State → Option ErrorCause
  | .xor _, s => checkTransform s
  | .addE _, s => checkTransform s
  | .addD _, s => checkTransform s
  | .shufE, s => checkTransform s
  | .shufD, s => checkTransform s
  | .ginit, _ => none
  | .gnext, _ => none
  | .pbuild, s => checkLength s
  | .pinv, s => checkPinv s

/-- `issue(w)`: `CMD <- w`, decode, check, then reject or accept, as one action (R110). An `Illegal` word is `E_OP`
(30_encoding.md R52). -/
def issue (w : Word) (s : State) : State :=
  let s := { s with cmd := w }
  match decode w with
  | .illegal _ => s.reject .eOp
  | .legal i =>
    match check i s with
    | some e => s.reject e
    | none => s.accept

/-! ### Which transactions are provided -/

/-- 32-bit accesses: a register of R10, or an aligned word inside `SRC` or `DST` (R33). -/
def wordProvided (maxPix : Nat) : Space → Nat → Bool
  | .reg, a => (regAt a).isSome
  | .src, a => decide (a % 4 = 0 ∧ a + 3 < 4 * maxPix)
  | .dst, a => decide (a % 4 = 0 ∧ a + 3 < 4 * maxPix)
  | .perm, _ => false
  | .inv, _ => false

/-- Byte accesses: a byte of `SRC` or `DST` (R33). -/
def byteProvided (maxPix : Nat) : Space → Nat → Bool
  | .src, a => decide (a < 4 * maxPix)
  | .dst, a => decide (a < 4 * maxPix)
  | .reg, _ => false
  | .perm, _ => false
  | .inv, _ => false

/-- Entry accesses: an entry of `PERM` or `INV` (R33). -/
def entryProvided (maxPix : Nat) : Space → Nat → Bool
  | .perm, i => decide (i < maxPix)
  | .inv, i => decide (i < maxPix)
  | .reg, _ => false
  | .src, _ => false
  | .dst, _ => false

/-- The table of R33: whether a block of capacity `maxPix` provides a transaction. -/
def provided (maxPix : Nat) : Transaction → Bool
  | .rd32 sp a => wordProvided maxPix sp a
  | .wr32 sp a _ => wordProvided maxPix sp a
  | .rd8 sp a => byteProvided maxPix sp a
  | .wr8 sp a _ => byteProvided maxPix sp a
  | .rde sp i => entryProvided maxPix sp i
  | .wre sp i _ => entryProvided maxPix sp i
  | .rd16 _ _ => false
  | .wr16 _ _ _ => false

/-- `REG` offsets 0x1C to 0xFF, as 32-bit words (R10, U6). -/
def reservedOffset (a : Nat) : Bool := decide (a % 4 = 0 ∧ 0x1C ≤ a ∧ a < 0x100)

/-- The name of the refusal of a transaction that is not provided: a reserved register (U6) or anything else (U5). -/
def refusalOf : Transaction → Refusal
  | .rd32 .reg a => if reservedOffset a then .reservedRegister else .notProvided
  | .wr32 .reg a _ => if reservedOffset a then .reservedRegister else .notProvided
  | _ => .notProvided

/-- A read of `STATUS`, "the one host access allowed while `BUSY = 1`" (R12) and the one that ends the wait (R153). -/
abbrev readStatus : Transaction := .rd32 .reg 0x04

/-! ### What a provided transaction does -/

/-- What a host read of 32 bits returns (R10, R32). -/
def State.readWord (s : State) : Space → Nat → Option Reply
  | .reg, a => (regAt a).map (fun r => .word (s.readReg r))
  | .src, a => some (.word (wordOfBytes (s.readSrc a) (s.readSrc (a + 1)) (s.readSrc (a + 2)) (s.readSrc (a + 3))))
  | .dst, a => some (.word (wordOfBytes (s.readDst a) (s.readDst (a + 1)) (s.readDst (a + 2)) (s.readDst (a + 3))))
  | .perm, _ => none
  | .inv, _ => none

/-- What a host read of a byte returns. -/
def State.readByte (s : State) : Space → Nat → Option Reply
  | .src, a => some (.byte (s.readSrc a))
  | .dst, a => some (.byte (s.readDst a))
  | .reg, _ => none
  | .perm, _ => none
  | .inv, _ => none

/-- What a host read of an entry returns. -/
def State.readEntry (s : State) : Space → Nat → Option Reply
  | .perm, i => some (.word (s.readPerm i))
  | .inv, i => some (.word (s.readInv i))
  | .reg, _ => none
  | .src, _ => none
  | .dst, _ => none

/-- A host write of a register: `CMD` issues a command (R11); `SEED`, `BUFLEN`, `PN` only store (R36); a write to the
read-only `STATUS`, `X`, `CAP` is ignored (R10, U7). -/
def State.writeReg (s : State) (r : RegName) (w : Word) : State :=
  match r with
  | .cmd => issue w s
  | .seed => { s with seed := w }
  | .buflen => { s with buflen := w }
  | .pn => { s with pn := w }
  | .status => s
  | .x => s
  | .cap => s

/-- A 32-bit write to `SRC`: bits 7:0 at the lowest offset (R32). -/
def State.writeSrcWord (s : State) (a : Nat) (w : Word) : State :=
  (((s.writeSrc a (byteOfWord w 0)).writeSrc (a + 1) (byteOfWord w 1)).writeSrc (a + 2) (byteOfWord w 2)).writeSrc (a + 3)
    (byteOfWord w 3)

/-- A 32-bit write to `DST`: bits 7:0 at the lowest offset (R32). -/
def State.writeDstWord (s : State) (a : Nat) (w : Word) : State :=
  (((s.writeDst a (byteOfWord w 0)).writeDst (a + 1) (byteOfWord w 1)).writeDst (a + 2) (byteOfWord w 2)).writeDst (a + 3)
    (byteOfWord w 3)

/-- A host write of 32 bits. -/
def State.writeWord (s : State) (sp : Space) (a : Nat) (w : Word) : State :=
  match sp with
  | .reg => (match regAt a with
    | some r => s.writeReg r w
    | none => s)
  | .src => s.writeSrcWord a w
  | .dst => s.writeDstWord a w
  | .perm => s
  | .inv => s

/-- A host write of a byte. -/
def State.writeByte (s : State) (sp : Space) (a : Nat) (b : Byte) : State :=
  match sp with
  | .src => s.writeSrc a b
  | .dst => s.writeDst a b
  | .reg => s
  | .perm => s
  | .inv => s

/-- A host write of an entry. -/
def State.writeEntry (s : State) (sp : Space) (i : Nat) (w : Word) : State :=
  match sp with
  | .perm => s.writePerm i w
  | .inv => s.writeInv i w
  | .reg => s
  | .src => s
  | .dst => s

/-- A read of `STATUS`: one that returns `BUSY = 0` ends the host's wait (R153); nothing of the block changes (R12). -/
def State.afterStatusRead (s : State) : State := { s with unread := s.unread && s.busy }

/-- The state a host read of 32 bits leaves. -/
def State.afterReadWord (s : State) : Space → Nat → State
  | .reg, a => if regAt a = some .status then s.afterStatusRead else s
  | .src, _ => s
  | .dst, _ => s
  | .perm, _ => s
  | .inv, _ => s

/-- The state a provided transaction leaves. No read changes anything of the block (R36). -/
def State.afterAccess (s : State) : Transaction → State
  | .rd32 sp a => s.afterReadWord sp a
  | .wr32 sp a w => s.writeWord sp a w
  | .rd8 _ _ => s
  | .wr8 sp a b => s.writeByte sp a b
  | .rde _ _ => s
  | .wre sp i w => s.writeEntry sp i w
  | .rd16 _ _ => s
  | .wr16 _ _ _ => s

/-- What a provided transaction returns to the host: a value for a read, none for a write. -/
def State.replyTo (s : State) : Transaction → Option Reply
  | .rd32 sp a => s.readWord sp a
  | .wr32 _ _ _ => none
  | .rd8 sp a => s.readByte sp a
  | .wr8 _ _ _ => none
  | .rde sp i => s.readEntry sp i
  | .wre _ _ _ => none
  | .rd16 _ _ => none
  | .wr16 _ _ _ => none

/-- Adds a returned value to the model's record of replies (log entry 6). -/
def State.logReply (s : State) (r : Option Reply) : State := { s with replies := s.replies ++ r.toList }

/-- One host transaction: refused from the issue of an accepted command until a read of `STATUS` returns `BUSY = 0`, unless it
reads `STATUS` (R153, U2); refused when the block does not provide it (R33, U5, U6); and otherwise performed at once (R33:
"single-copy atomic"). -/
def access (t : Transaction) (s : State) : Host.Outcome State Fault Refusal :=
  if s.held = true ∧ t ≠ readStatus then .refused .hostWhileBusy
  else if provided s.maxPix t = false then .refused (refusalOf t)
  else .next ((s.afterAccess t).logReply (s.replyTo t))

end Sys2Proof.Machine
end

