-- ==== Sys2Proof/Machine/ByteTransform.lean ====
section
/-! DEFINITION. The commands of unit BT: `XOR`, `ADD.E`, `ADD.D` (43_byte_transform.md R91 to R93). -/

namespace Sys2Proof.Machine

/-- `b XOR key` (R91). -/
def byteXor (key b : Byte) : Byte := b ^^^ key

/-- `(b + key) mod 256`, the sum formed exactly (R92). -/
def byteAdd (key b : Byte) : Byte := BitVec.ofNat 8 ((b.toNat + key.toNat) % 256)

/-- `(b - key + 256) mod 256`, the value before reduction in 1 to 511 (R93). -/
def byteSub (key b : Byte) : Byte := BitVec.ofNat 8 ((b.toNat + 256 - key.toNat) % 256)

/-- `XOR` (R91), either direction. -/
def execXor (alpha : Bool) (s : State) : Host.Outcome State Fault Refusal :=
  runCommand (checkTransform s) (bytePass (byteXor s.key8) alpha s.pixelCount) s

/-- `ADD.E` (R92). -/
def execAddE (alpha : Bool) (s : State) : Host.Outcome State Fault Refusal :=
  runCommand (checkTransform s) (bytePass (byteAdd s.key8) alpha s.pixelCount) s

/-- `ADD.D` (R93). -/
def execAddD (alpha : Bool) (s : State) : Host.Outcome State Fault Refusal :=
  runCommand (checkTransform s) (bytePass (byteSub s.key8) alpha s.pixelCount) s

end Sys2Proof.Machine
end

