-- ==== Sys2Proof/Machine/Generator.lean ====
section
/-! DEFINITION. The commands of unit KG: `GINIT`, `GNEXT` (41_generator.md R73, R74). -/

namespace Sys2Proof.Machine

/-- `GINIT`: `X <- SEED` (R73). No check beyond decoding (R111). -/
def execGinit (s : State) : Host.Outcome State Fault Refusal := runCommand none State.reseed s

/-- `GNEXT`: `X <- xs32(X)` (R74). No check beyond decoding (R111). -/
def execGnext (s : State) : Host.Outcome State Fault Refusal := runCommand none State.draw s

end Sys2Proof.Machine
end

