-- ==== Sys2Proof/Machine/Permutation.lean ====
section
/-! DEFINITION. The commands of unit PB: `PBUILD`, `PINV` (42_permutation.md R81, R86). -/

namespace Sys2Proof.Machine

/-- `PBUILD`: `n <- PN`; `E_CAP` when `n > MAXPIX`; `build(n)` (R81). -/
def execPbuild (s : State) : Host.Outcome State Fault Refusal := runCommand (checkLength s) (build s.pn.toNat) s

/-- `PINV`: `n <- PN`; `E_CAP` when `n > MAXPIX`; `E_PERM` when an entry is out of range; `invert(n)` (R86). Repeated
entries are not detected (R135, U3; log entry 10). -/
def execPinv (s : State) : Host.Outcome State Fault Refusal := runCommand (checkPinv s) (invert s.pn.toNat) s

end Sys2Proof.Machine
end

