-- ==== Sys2Proof/Machine/Shuffle.lean ====
section
/-! DEFINITION. The commands of units PB and PS: `SHUF.E`, `SHUF.D` (44_pixel_shuffle.md R101, R102). -/

namespace Sys2Proof.Machine

/-- `build(n); gather(PERM, n)` (R101). -/
def shuffleEncrypt (n : Nat) (s : State) : State := gatherPerm n (build n s)

/-- `build(n); invert(n); gather(INV, n)` (R102). -/
def shuffleDecrypt (n : Nat) (s : State) : State := gatherInv n (invert n (build n s))

/-- `SHUF.E` (R101). -/
def execShufE (s : State) : Host.Outcome State Fault Refusal :=
  runCommand (checkTransform s) (shuffleEncrypt s.pixelCount) s

/-- `SHUF.D` (R102). -/
def execShufD (s : State) : Host.Outcome State Fault Refusal :=
  runCommand (checkTransform s) (shuffleDecrypt s.pixelCount) s

end Sys2Proof.Machine
end

