-- ==== Sys2Proof/Machine/Dispatch.lean ====
section
/-! DEFINITION. Dispatch: one arm per command (45_transform_engine.md R113, R115). -/

namespace Sys2Proof.Machine

/-- The meaning of each command on the state at issue. -/
def exec (i : Instr) (s : State) : Host.Outcome State Fault Refusal :=
  match i with
  | .xor alpha => Sys2Proof.Machine.execXor alpha s
  | .addE alpha => Sys2Proof.Machine.execAddE alpha s
  | .addD alpha => Sys2Proof.Machine.execAddD alpha s
  | .shufE => Sys2Proof.Machine.execShufE s
  | .shufD => Sys2Proof.Machine.execShufD s
  | .ginit => Sys2Proof.Machine.execGinit s
  | .gnext => Sys2Proof.Machine.execGnext s
  | .pbuild => Sys2Proof.Machine.execPbuild s
  | .pinv => Sys2Proof.Machine.execPinv s

end Sys2Proof.Machine
end

