-- ==== Sys2Proof/Machine/Block.lean ====
section
/-! DEFINITION. The block's turn, a host event, and reset (45_transform_engine.md R113, R114, R123; 70_reset_and_hazards.md
R150). -/

namespace Sys2Proof.Machine

/-- The block's turn: "enabled when `BUSY = 1`: perform the whole procedure and the completion" (R123), `OP`, `DIR` and
`ALPHA` taken from `CMD` (R11). An idle block does nothing (R144). -/
def blockTurn (s : State) : Host.Outcome State Fault Refusal :=
  if s.busy then
    match decode s.cmd with
    | .legal i => exec i s
    | .illegal _ => .fault .busyWithoutCommand
  else .next s

/-- A host transaction, then, when the event says so, the block's turn (R123; log entry 5). -/
def hostEvent (t : Transaction) (blockRuns : Bool) (s : State) : Host.Outcome State Fault Refusal :=
  match access t s with
  | .next s' => if blockRuns then blockTurn s' else .next s'
  | .fault f => .fault f
  | .refused r => .refused r

/-- Reset, at any time: every register its reset value, `CAP` the instance's `MAXPIX`, a command in progress ended without
completion, all four memories unspecified anew (R150, R26, U4). The outside world's own fields stay (log entry 16). -/
def State.resetBlock (s : State) : State :=
  { State.resetWith s.maxPix with events := s.events, replies := s.replies, resets := s.resets + 1 }

/-- One event of the outside world. -/
def handleEvent (e : Event) (s : State) : Host.Outcome State Fault Refusal :=
  match e with
  | .host t blockRuns => hostEvent t blockRuns s
  | .reset => .next s.resetBlock

/-- One step: the next event, or, when the outside world does nothing, the block's turn (R123 "weak fairness of the block
step"; log entries 5 and 19). -/
def stepState (s : State) : Host.Outcome State Fault Refusal :=
  match s.events with
  | [] => blockTurn s
  | e :: rest => handleEvent e { s with events := rest }

/-- The state in which the host's next transaction writes `w` to `CMD` and the block runs the command at once (log entry
1). A block with a command in progress, or one whose completion the host has not read, would refuse that write, so both are
dropped. -/
def State.withCommand (s : State) (w : Word) : State :=
  { s with
    status := if s.busy then statusIdle else s.status
    unread := false
    events := .host (.wr32 .reg 0x00 w) true :: s.events }

end Sys2Proof.Machine
end

