-- ==== Sys2Proof/Machine/Step.lean ====
section
/-! DEFINITION. The step function and the host's way to place a command. -/

namespace Sys2Proof.Machine

/-- One step of the machine: the next event of the outside world, or the block's turn. -/
def step (s : State) : Host.Outcome State Fault Refusal := stepState s

/-- `s` with the command word `w` as the host's next transaction, so that the next step issues and runs exactly it. There is
no fetch (20_memory.md R45): "a command is the data of a write to `CMD`". -/
def State.withFetchWord (s : State) (nbits w : Nat) : State :=
  s.withCommand (BitVec.ofNat 32 (w % 2 ^ nbits))

end Sys2Proof.Machine
end

