-- ==== Sys2Proof/Machine/Script.lean ====
section
/-! DEFINITION. Host scripts (30_encoding.md R56): the host's actions as functions that perform transactions on the machine,
through the same `hostEvent` the step uses. `delay` is how many reads of `STATUS` find the block busy after an accepted
command (70_reset_and_hazards.md R158: finite and not given; log entry 14). -/

namespace Sys2Proof.Machine

/-- How a driver function ends: with a value, with InvalidInput and a cause (60_exceptions.md R136), or stopped by the
machine; always beside the state it leaves. -/
inductive DriverResult (α : Type) where
  | returned (a : α) (s : State)
  | invalid (cause : InvalidCause) (s : State)
  | refused (r : Refusal)
  | fault (f : Fault)
deriving DecidableEq, Repr

/-- Goes on with a returned value; anything else ends the driver function. -/
def DriverResult.bind {α β : Type} (r : DriverResult α) (k : α → State → DriverResult β) : DriverResult β :=
  match r with
  | .returned a s => k a s
  | .invalid c s => .invalid c s
  | .refused r => .refused r
  | .fault f => .fault f

/-- One host transaction; the value returned is what the transaction returns to the host. -/
def transact (t : Transaction) (blockRuns : Bool) (s : State) : DriverResult (Option Reply) :=
  match hostEvent t blockRuns s with
  | .next s' => .returned (s.replyTo t) s'
  | .fault f => .fault f
  | .refused r => .refused r

/-- The word of a reply; a read always has one. -/
def replyWord : Option Reply → Word
  | some (.word w) => w
  | some (.byte b) => b.setWidth 32
  | none => 0

/-- The byte of a reply; a byte read always has one. -/
def replyByte : Option Reply → Byte
  | some (.byte b) => b
  | some (.word w) => w.setWidth 8
  | none => 0

/-- `WR <reg>, <value>`: `WR32(REG, offset of <reg>, <value>)`. -/
def writeRegister (r : RegName) (v : Word) (s : State) : DriverResult (Option Reply) :=
  transact (.wr32 .reg (regOffset r) v) true s

/-- `RD <reg>`: `RD32(REG, offset of <reg>)`. -/
def readRegister (r : RegName) (s : State) : DriverResult (Option Reply) := transact (.rd32 .reg (regOffset r)) true s

/-- `LDB <space>, <offset>, [b0, b1, ...]`. -/
def loadBytes (sp : Space) : Nat → List Byte → State → DriverResult Unit
  | _, [], s => .returned () s
  | a, b :: bs, s => (transact (.wr8 sp a b) true s).bind (fun _ s => loadBytes sp (a + 1) bs s)

/-- `LDE <space>, <index>, [e0, e1, ...]`. -/
def loadEntries (sp : Space) : Nat → List Word → State → DriverResult Unit
  | _, [], s => .returned () s
  | i, e :: es, s => (transact (.wre sp i e) true s).bind (fun _ s => loadEntries sp (i + 1) es s)

/-- `[RD8(space, a), ..., RD8(space, a + n - 1)]`. -/
def fetchBytes (sp : Space) : Nat → Nat → State → DriverResult (List Byte)
  | _, 0, s => .returned [] s
  | a, n + 1, s =>
    (transact (.rd8 sp a) true s).bind (fun r s =>
      (fetchBytes sp (a + 1) n s).bind (fun bs s => .returned (replyByte r :: bs) s))

/-- `[RDE(space, i), ..., RDE(space, i + n - 1)]`. -/
def fetchEntries (sp : Space) : Nat → Nat → State → DriverResult (List Word)
  | _, 0, s => .returned [] s
  | i, n + 1, s =>
    (transact (.rde sp i) true s).bind (fun r s =>
      (fetchEntries sp (i + 1) n s).bind (fun es s => .returned (replyWord r :: es) s))

/-- `COPY DST, SRC, <len>` from offset `k`: `WR8(SRC, k, RD8(DST, k))` for each `k`, ascending. -/
def copyBack : Nat → Nat → State → DriverResult Unit
  | _, 0, s => .returned () s
  | k, n + 1, s =>
    (transact (.rd8 .dst k) true s).bind (fun r s =>
      (transact (.wr8 .src k (replyByte r)) true s).bind (fun _ s => copyBack (k + 1) n s))

/-- A write to `CMD`; the block is still busy after it when `delay` is not 0. -/
def issueCommand (w : Word) (delay : Nat) (s : State) : DriverResult (Option Reply) :=
  transact (.wr32 .reg (regOffset .cmd) w) (delay == 0) s

/-- `RD32(REG, 0x04)`, the block's turn following or not, as the word it returns. -/
def pollStatus (blockRuns : Bool) (s : State) : DriverResult Word :=
  (transact readStatus blockRuns s).bind (fun r s => .returned (replyWord r) s)

/-- `WAIT`: `RD32(REG, 0x04)` repeated until it returns `BUSY = 0`. A block that is busy completes after the read number
`delay`, or after the first when `delay` is 0; the read after that is then the last, for a block that has had its turn is not
busy (`Obligations.WaitEndsOnBusyZero` states it; log entry 14). Returns the last `STATUS` read. -/
def waitDone : Nat → State → DriverResult Word
  | 0, s => (pollStatus true s).bind (fun w s => if statusBusyBit w then pollStatus true s else .returned w s)
  | d + 1, s => (pollStatus (d == 0) s).bind (fun w s => if statusBusyBit w then waitDone d s else .returned w s)

/-- One line of a host script (R56). -/
def runLine (delay : Nat) (l : ScriptLine) (s : State) : DriverResult Unit :=
  match l with
  | .wr r v => (writeRegister r v s).bind (fun _ s => .returned () s)
  | .rd r => (readRegister r s).bind (fun _ s => .returned () s)
  | .ldb sp a bs => loadBytes sp a bs s
  | .lde sp i es => loadEntries sp i es s
  | .command i => (issueCommand (encode i) delay s).bind (fun _ s => .returned () s)
  | .cmdw w => (issueCommand w delay s).bind (fun _ s => .returned () s)
  | .wait => (waitDone delay s).bind (fun _ s => .returned () s)
  | .copy n => copyBack 0 n s

/-- A host script, line by line (R56). -/
def runScript (delay : Nat) : List ScriptLine → State → DriverResult Unit
  | [], s => .returned () s
  | l :: ls, s => (runLine delay l s).bind (fun _ s => runScript delay ls s)

end Sys2Proof.Machine
end

