-- ==== Sys2Proof/Machine/SeedDerivation.lean ====
section
/-! DEFINITION. The host driver's `deriveSeed` and `key8` (40_seed_derivation.md R60 to R69): software, on a key string the
block never sees. -/

namespace Sys2Proof.Machine

/-- The code unit of `-` (R62). -/
def minusSign : CodeUnit := 0x002D

/-- A decimal digit `0` to `9`, code units 0x0030 to 0x0039 (R62). -/
def isDigit (c : CodeUnit) : Bool := decide (0x0030 ≤ c.toNat ∧ c.toNat ≤ 0x0039)

/-- The key without an optional single leading `-` (R62). -/
def keyDigits : Key → Key
  | [] => []
  | c :: rest => if c = minusSign then rest else c :: rest

/-- `isNumeric(key)` (R62): after the optional `-`, one or more digits and nothing else. -/
def isNumeric (key : Key) : Bool := !(keyDigits key).isEmpty && (keyDigits key).all isDigit

/-- The exact number a digit string spells, left to right (R63). -/
def decimalValue (digits : Key) : Nat := digits.foldl (fun v c => 10 * v + (c.toNat - 0x0030)) 0

/-- `numericSeed(key)`: the exact value modulo 2^32 (R63). -/
def numericSeed (key : Key) : Word := BitVec.ofNat 32 (decimalValue (keyDigits key) % 2 ^ 32)

/-- One step of the hash: exclusive or with the whole code unit, then times 0x01000193 modulo 2^32 (R64). -/
def hashStep (h : Word) (c : CodeUnit) : Word :=
  BitVec.ofNat 32 ((h ^^^ c.setWidth 32).toNat * 0x01000193 % 2 ^ 32)

/-- `hashSeed(key)` (R64). -/
def hashSeed (key : Key) : Word := key.foldl hashStep 0x811C9DC5

/-- `deriveSeed(key)` (R65): total, pure, deterministic. -/
def deriveSeed (key : Key) : Word := if isNumeric key then numericSeed key else hashSeed key

/-- `key8(key) = deriveSeed(key) AND 0xFF` (R66). -/
def key8OfKey (key : Key) : Byte := (deriveSeed key &&& 0xFF).setWidth 8

end Sys2Proof.Machine
end

