-- ==== Sys2Proof/Machine/Driver.lean ====
section
/-! DEFINITION. The host driver: `transform` (45_transform_engine.md R117, R118) and the rest of SCT2's library surface (R119,
R120; the macros of 30_encoding.md R57). -/

namespace Sys2Proof.Machine

/-- The driver's cause for a block's `ECODE` (60_exceptions.md R136); the values 0 and 5 to 15 never come with `ERR = 1`. -/
def causeOfEcode (c : BitVec 4) : InvalidCause :=
  if c = errorCode .eOp then .unsupportedOperation
  else if c = errorCode .eLen4 then .lengthNotMultipleOf4
  else if c = errorCode .eCap then .tooLarge
  else .notAPermutation

/-- `if STATUS.ERR = 1 then fail InvalidInput(cause from STATUS.ECODE)`, else go on. -/
def failOnError {α : Type} (status : Word) (k : State → DriverResult α) (s : State) : DriverResult α :=
  if statusErrBit status then .invalid (causeOfEcode (statusEcode status)) s else k s

/-- Issue, `WAIT`, and fail when the block rejected the command. -/
def commandAndWait {α : Type} (delay : Nat) (w : Word) (k : State → DriverResult α) (s : State) : DriverResult α :=
  (issueCommand w delay s).bind (fun _ s => (waitDone delay s).bind (fun st s => failOnError st k s))

/-- The word of the command a request's operation and direction select (R115); `ALPHA` is 0 for SHUFFLE (R117). None for an
unsupported operation. -/
def requestWord : Operation → Direction → Bool → Option Word
  | .xor, d, a => some (encodeFields 0x1 (d == .decrypt) a)
  | .add, d, a => some (encodeFields 0x2 (d == .decrypt) a)
  | .shuffle, d, _ => some (encodeFields 0x3 (d == .decrypt) false)
  | .unsupported _, _, _ => none

/-- The cause of InvalidInput for a buffer of `len` bytes that is too long for `BUFLEN`, in the block's order: length, then
capacity (R138). DESIGN CHOICE (log entry 21): the spec gives no script for a length of 2^32 or more. -/
def causeOfHugeLength (len : Nat) : InvalidCause := if len % 4 ≠ 0 then .lengthNotMultipleOf4 else .tooLarge

/-- The body of `transform` after the checks: load `SRC`, `WR BUFLEN`, `WR SEED`, issue, `WAIT`, read `DST` (R117, R119).
DESIGN CHOICE (log entry 21): of a buffer larger than `SRC` only the bytes that have an offset there are loaded, since a write
past its end is not provided (20_memory.md R33, U5); `BUFLEN` gets the whole length, so that the block itself rejects the
command with `E_LEN4` or `E_CAP`, as R119 names. A length that `BUFLEN` cannot hold fails before anything is written. -/
def runTransform (delay : Nat) (buffer : List Byte) (seed w : Word) (s : State) : DriverResult (List Byte) :=
  if 2 ^ 32 ≤ buffer.length then .invalid (causeOfHugeLength buffer.length) s
  else
    (loadBytes .src 0 (buffer.take (4 * s.maxPix)) s).bind (fun _ s =>
      (writeRegister .buflen (BitVec.ofNat 32 buffer.length) s).bind (fun _ s =>
        (writeRegister .seed seed s).bind (fun _ s =>
          commandAndWait delay w (fetchBytes .dst 0 buffer.length) s)))

/-- `transform(buffer, request)` (R117): the checks c1 to c4 in their order, before anything is written to the block, then
the body. -/
def transform (delay : Nat) (buffer : List Byte) (req : Request) (s : State) : DriverResult (List Byte) :=
  match requestWord req.operation req.direction req.includeAlpha with
  | none => .invalid .unsupportedOperation s
  | some w =>
    if req.operation = .shuffle ∧ req.key = [] then .invalid .emptyKey s
    else if buffer.length % 4 ≠ 0 then .invalid .lengthNotMultipleOf4 s
    else (readRegister .cap s).bind (fun cap s =>
      if buffer.length / 4 > (replyWord cap).toNat then .invalid .tooLarge s
      else runTransform delay buffer (deriveSeed req.key) w s)

/-- `applyByteOp(buffer, op, direction, key8, includeAlpha)`, `op` in XOR, ADD (R119). DESIGN CHOICE (log entry 14): any other
`op` is outside the contract and answers InvalidInput(UnsupportedOperation). -/
def applyByteOp (delay : Nat) (buffer : List Byte) (op : Operation) (direction : Direction) (key8 : Byte)
    (includeAlpha : Bool) (s : State) : DriverResult (List Byte) :=
  match op with
  | .xor => runTransform delay buffer (key8.setWidth 32) (encodeFields 0x1 false includeAlpha) s
  | .add => runTransform delay buffer (key8.setWidth 32) (encodeFields 0x2 (direction == .decrypt) includeAlpha) s
  | .shuffle => .invalid .unsupportedOperation s
  | .unsupported _ => .invalid .unsupportedOperation s

/-- `applyShuffle(buffer, direction, seed)` (R119). -/
def applyShuffle (delay : Nat) (buffer : List Byte) (direction : Direction) (seed : Word) (s : State) :
    DriverResult (List Byte) :=
  runTransform delay buffer seed (encodeFields 0x3 (direction == .decrypt) false) s

/-- `makeGenerator(seed)` (R120): the handle is the block instance. -/
def makeGenerator (delay : Nat) (seed : Word) (s : State) : DriverResult Unit :=
  (writeRegister .seed seed s).bind (fun _ s => commandAndWait delay (encode .ginit) (fun s => .returned () s) s)

/-- `next(handle)` (R120): `GNEXT; WAIT; return RD X`. -/
def nextDraw (delay : Nat) (s : State) : DriverResult Word :=
  commandAndWait delay (encode .gnext) (fun s => (readRegister .x s).bind (fun r s => .returned (replyWord r) s)) s

/-- `buildPermutation(n, seed)` (R120). -/
def buildPermutation (delay : Nat) (n seed : Word) (s : State) : DriverResult (List Word) :=
  (writeRegister .seed seed s).bind (fun _ s =>
    (writeRegister .pn n s).bind (fun _ s => commandAndWait delay (encode .pbuild) (fetchEntries .perm 0 n.toNat) s))

/-- `invertPermutation(p)` (R120). DESIGN CHOICE (log entry 21): of a sequence longer than `PERM` only the entries that have an
index there are loaded, since a write past its end is not provided (20_memory.md R33, U5); `PN` gets the whole length, so that
the block itself rejects the command with `E_CAP`, as R120 names. A length that `PN` cannot hold fails before anything is
written. -/
def invertPermutation (delay : Nat) (p : List Word) (s : State) : DriverResult (List Word) :=
  if 2 ^ 32 ≤ p.length then .invalid .tooLarge s
  else
    (loadEntries .perm 0 (p.take s.maxPix) s).bind (fun _ s =>
      (writeRegister .pn (BitVec.ofNat 32 p.length) s).bind (fun _ s =>
        commandAndWait delay (encode .pinv) (fetchEntries .inv 0 p.length) s))

end Sys2Proof.Machine
end

