-- ==== Sys2Proof/Safety.lean ====
section
/-! DEFINITION. What statements are said in: the invariant of a legal state, and the reference functions a command's result
is compared with. -/

namespace Sys2Proof.Machine

/-- Every location a memory lists lies below its size. -/
abbrev Memory.within {α : Type} (m : Memory α) (size : Nat) : Prop := ∀ p ∈ m, p.1 < size

/-- "At every moment exactly one of four conditions holds" (10_state.md R12): idle, busy, done, or rejected with one of the
four causes (60_exceptions.md R131); the reserved bits are 0. -/
abbrev statusLegal (w : Word) : Prop :=
  w = statusIdle ∨ w = statusBusy ∨ w = statusDone ∨
    w = statusRejected .eOp ∨ w = statusRejected .eLen4 ∨ w = statusRejected .eCap ∨ w = statusRejected .ePerm

/-- A legal state: the capacity is one R7 allows; `STATUS` is in one of its four conditions; the four memories are in
canonical form and list no location outside their sizes (R19 to R22, R37); a busy block has a legal command in `CMD` whose
checks passed (R112, R113), and its host owes a read of `STATUS` (R153). -/
structure State.Inv (s : State) : Prop where
  capacity : legalCapacity s.maxPix
  status : statusLegal s.status
  srcWf : Memory.wf s.src
  dstWf : Memory.wf s.dst
  permWf : Memory.wf s.perm
  invWf : Memory.wf s.inv
  srcWithin : Memory.within s.src (4 * s.maxPix)
  dstWithin : Memory.within s.dst (4 * s.maxPix)
  permWithin : Memory.within s.perm s.maxPix
  invWithin : Memory.within s.inv s.maxPix
  command : s.busy = true → ∃ i, decode s.cmd = .legal i ∧ check i s = none
  waiting : s.busy = true → s.unread = true

/-- The operands a transform command accepts (45_transform_engine.md R111). -/
abbrev State.transformReady (s : State) : Prop := s.buflen.toNat % 4 = 0 ∧ s.buflen.toNat / 4 ≤ s.maxPix

/-- A sequence with two places exchanged. -/
def swapPlaces (p : Nat → Nat) (i r j : Nat) : Nat := if j = i then p r else if j = r then p i else p j

/-- The Fisher-Yates loop `for i from k down to 1` on a sequence, from generator state `x` (42_permutation.md R80). -/
def fisherYatesFrom : Nat → Word → (Nat → Nat) → Nat → Nat
  | 0, _, p => p
  | k + 1, x, p => fisherYatesFrom k (xs32 x) (swapPlaces p (k + 1) ((xs32 x).toNat % (k + 1 + 1)))

/-- SCT2's `buildPermutation(n, seed)` as a function of the index (R80): the identity, then the loop from `n - 1`. -/
def permutationOf (n : Nat) (seed : Word) : Nat → Nat := fisherYatesFrom (n - 1) seed id

/-- The generator after `k` draws from a re-seed with `seed` (41_generator.md R72). -/
def afterDraws (k : Nat) (seed : Word) : Word := xs32^[k] seed

/-- Commands run one after another, each to its end; the first stop ends the run. -/
def execSeq : List Instr → State → Host.Outcome State Fault Refusal
  | [], s => .next s
  | i :: is, s =>
    match exec i s with
    | .next t => execSeq is t
    | .fault f => .fault f
    | .refused r => .refused r

/-- Pixel `p` of a buffer given by its bytes: R, G, B, A (20_memory.md R31). -/
def pixelOf (bytes : Nat → Byte) (p : Nat) : Byte × Byte × Byte × Byte :=
  (bytes (4 * p), bytes (4 * p + 1), bytes (4 * p + 2), bytes (4 * p + 3))

/-- What a transform of `buffer` leaves at offset `k`, the key material given as a seed: the byte operation with the seed's low
byte, or the gather through the permutation or its inverse (45_transform_engine.md R115, R119). -/
def transformedBy (buffer : List Byte) (op : Operation) (direction : Direction) (includeAlpha : Bool) (seed : Word) (k : Nat)
    (out : Byte) : Prop :=
  let n := buffer.length / 4
  let key := seed.extractLsb' 0 8
  let kept := k % 4 = 3 ∧ includeAlpha = false
  match op, direction with
  | .xor, _ => out = if kept then buffer.getD k 0 else buffer.getD k 0 ^^^ key
  | .add, .encrypt => out = if kept then buffer.getD k 0 else buffer.getD k 0 + key
  | .add, .decrypt => out = if kept then buffer.getD k 0 else buffer.getD k 0 - key
  | .shuffle, .encrypt => out = buffer.getD (4 * permutationOf n seed (k / 4) + k % 4) 0
  | .shuffle, .decrypt => ∃ j < n, permutationOf n seed j = k / 4 ∧ out = buffer.getD (4 * j + k % 4) 0
  | .unsupported _, _ => False

/-- What SCT2's `transform` returns at offset `k` for a request its checks pass: the seed is the key's (R117). -/
def transformed (buffer : List Byte) (req : Request) (k : Nat) (out : Byte) : Prop :=
  transformedBy buffer req.operation req.direction req.includeAlpha (deriveSeed req.key) k out

/-- `next(handle)` once for each delay, the values it returns in their order (R120). -/
def nextDraws : List Nat → State → DriverResult (List Word)
  | [], s => .returned [] s
  | d :: ds, s => (nextDraw d s).bind (fun w s => (nextDraws ds s).bind (fun ws s => .returned (w :: ws) s))

end Sys2Proof.Machine
end

