-- ==== Sys2Proof/Certificates/Slice0/Obligations.lean ====
section
/-! DEFINITION. The statements for the provers, file by file of spec/. A docstring names the rule a statement formalises;
where a clause is the model's choice it names the log entry. An accepted command also leaves `unread`, the model's record that the
host owes a read of `STATUS` (70_reset_and_hazards.md R153; log entry 8), true: "nothing else changes" is said beside that. -/

open Sys2Proof Sys2Proof.Machine

/-! ### Encoding (30_encoding.md) -/

/-- 30_encoding.md section 2: commands written out as words, bit by bit (`RSV`, `ALPHA`, `DIR`, `OP`). -/
def Obligations.WrittenWordsDecode : Prop :=
  decode 0b00000000000000000000000000_0_1_0001#32 = .legal (.xor false) ∧
  decode 0b00000000000000000000000000_1_0_0010#32 = .legal (.addE true) ∧
  decode 0b00000000000000000000000000_0_1_0010#32 = .legal (.addD false) ∧
  decode 0b00000000000000000000000000_1_1_0011#32 = .legal .shufD ∧
  decode 0b00000000000000000000000000_0_0_1000#32 = .legal .ginit ∧
  decode 0b00000000000000000000000000_0_0_1010#32 = .legal .pbuild ∧
  decode 0b00000000000000000000000000_0_1_1000#32 = .illegal .flagMustBeZero ∧
  decode 0b00000000000000000000000000_0_0_0000#32 = .illegal .reservedOp ∧
  decode 0b00000000000000000000000001_0_0_0001#32 = .illegal .reservedBits

/-- R51: the complete list of legal words and the command of each; every other word decodes to no command. -/
def Obligations.SixteenLegalWords : Prop :=
  ∀ (w : Word) (i : Instr), decode w = .legal i ↔
    (w, i) ∈ [(0x01#32, Instr.xor false), (0x11#32, .xor false), (0x21#32, .xor true), (0x31#32, .xor true),
      (0x02#32, .addE false), (0x22#32, .addE true), (0x12#32, .addD false), (0x32#32, .addD true),
      (0x03#32, .shufE), (0x23#32, .shufE), (0x13#32, .shufD), (0x33#32, .shufD),
      (0x08#32, .ginit), (0x09#32, .gnext), (0x0A#32, .pbuild), (0x0B#32, .pinv)]

/-- R51, R53, R56: decoding an encoded command gives it back, and a legal word is the encoding of its command but for the
ignored bit (`DIR` of `XOR`, `ALPHA` of the shuffles). -/
def Obligations.DecodeEncodeAgree : Prop :=
  (∀ i : Instr, i.wf = true → decode (encode i) = .legal i) ∧
  ∀ (w : Word) (i : Instr), decode w = .legal i →
    encode i = w &&& (match i with
      | .xor _ => 0xFFFFFFEF#32
      | .shufE => 0xFFFFFFDF#32
      | .shufD => 0xFFFFFFDF#32
      | .addE _ => 0xFFFFFFFF#32
      | .addD _ => 0xFFFFFFFF#32
      | .ginit => 0xFFFFFFFF#32
      | .gnext => 0xFFFFFFFF#32
      | .pbuild => 0xFFFFFFFF#32
      | .pinv => 0xFFFFFFFF#32)

/-! ### Reset (10_state.md R26, 70_reset_and_hazards.md R150) -/

/-- R26: after reset every register is 0 but `CAP`, which is `MAXPIX`; no memory location has a value; no command is in
progress. `State.reset` is that state for the open parameter, which is a legal capacity. -/
def Obligations.ResetValues : Prop :=
  State.reset = State.resetWith Config.maxPix ∧ legalCapacity Config.maxPix ∧
  ∀ n : Nat, legalCapacity n →
    (State.resetWith n).cmd = 0 ∧ (State.resetWith n).status = 0x00000000#32 ∧ (State.resetWith n).seed = 0 ∧
    (State.resetWith n).buflen = 0 ∧ (State.resetWith n).pn = 0 ∧ (State.resetWith n).x = 0 ∧
    (State.resetWith n).cap.toNat = n ∧ (State.resetWith n).held = false ∧
    ∀ a : Nat, Memory.read (State.resetWith n).src a = none ∧ Memory.read (State.resetWith n).dst a = none ∧
      Memory.read (State.resetWith n).perm a = none ∧ Memory.read (State.resetWith n).inv a = none

/-- The reset state is legal (the invariant of `StepKeepsInvariant`). -/
def Obligations.ResetStateLegal : Prop := State.reset.Inv

/-- R150, R26: reset from any state, a busy one too: every register its reset value, `CAP` kept, no command in progress, all
four memories without a value. That the pending events and the replies stay, the reset count rises and no read of `STATUS` is
owed is the model's own (log entries 4, 8, 16). -/
def Obligations.ResetEventFromAnyState : Prop :=
  ∀ (s : State) (rest : List Event), s.events = .reset :: rest →
    step s = .next
      { cmd := 0, status := 0x00000000#32, seed := 0, buflen := 0, pn := 0, x := 0, cap := s.cap
        src := [], dst := [], perm := [], inv := []
        events := rest, replies := s.replies, resets := s.resets + 1, unread := false }

/-! ### Steps, issue, the two phases (45_transform_engine.md) -/

/-- R110, R113: a legal word written to `CMD` by a host that may (R153), the block taking its turn at once, is `exec` of the
decoded command at the state with `CMD` written and the event consumed (the turn at once: log entry 5). -/
def Obligations.StepRunsDecodedCommand : Prop :=
  ∀ (s : State) (w : Word) (i : Instr) (rest : List Event),
    s.held = false → s.events = .host (.wr32 .reg 0x00 w) true :: rest → decode w = .legal i →
    step s = exec i { s with cmd := w, events := rest }

/-- The host's placing of a table word (log entry 1): the very next step is `exec` of the command it decodes to, from any
state, with no read of `STATUS` owed. -/
def Obligations.PlacedWordRuns : Prop :=
  ∀ (s : State) (nbits w : Nat) (i : Instr), decodeTableWord nbits w = some i →
    step (s.withFetchWord nbits w) = exec i { s with cmd := BitVec.ofNat 32 (w % 2 ^ nbits), unread := false }

/-- R52, R132, R112: any word but the sixteen legal ones, written to `CMD` by a host that may (R153), is rejected with
`E_OP`: `STATUS` reads 0x00000104, `CMD` holds the word, nothing else changes. -/
def Obligations.IllegalWordRejected : Prop :=
  ∀ (s : State) (w : Word) (turn : Bool) (rest : List Event),
    s.held = false → s.events = .host (.wr32 .reg 0x00 w) turn :: rest →
    w ∉ [0x01#32, 0x11#32, 0x21#32, 0x31#32, 0x02#32, 0x22#32, 0x12#32, 0x32#32, 0x03#32, 0x23#32, 0x13#32, 0x33#32,
      0x08#32, 0x09#32, 0x0A#32, 0x0B#32] →
    step s = .next { s with cmd := w, status := 0x00000104#32, events := rest }

/-- R112, R113, R139: a legal word written to `CMD`. Accepted, its block turn not yet come: `STATUS` is busy, a read of `STATUS` is
owed (R153) and nothing else changed but `CMD`. Rejected, whether or not a block turn follows: `CMD` holds the word and `STATUS` is
rejected with the cause the check gives; `BUSY` is never 1, no read of `STATUS` is owed, nothing else changes. -/
def Obligations.LegalIssueIsBusyOrRejected : Prop :=
  ∀ (s : State) (w : Word) (i : Instr) (rest : List Event), s.held = false → decode w = .legal i →
    (check i s = none → s.events = .host (.wr32 .reg 0x00 w) false :: rest →
      step s = .next { s with cmd := w, status := 0x00000001#32, unread := true, events := rest }) ∧
    ∀ (e : ErrorCause) (turn : Bool), check i s = some e → s.events = .host (.wr32 .reg 0x00 w) turn :: rest →
      step s = .next { s with
        cmd := w
        status := (match e with
          | .eOp => 0x00000104#32
          | .eLen4 => 0x00000204#32
          | .eCap => 0x00000304#32
          | .ePerm => 0x00000404#32)
        events := rest }

/-- R113, R123: with nothing from the outside world, a busy block runs the command in `CMD`, and an idle one keeps all state
(R144). -/
def Obligations.BlockTurnRunsCommand : Prop :=
  (∀ (s : State) (i : Instr), s.events = [] → s.busy = true → decode s.cmd = .legal i → step s = exec i s) ∧
  (∀ s : State, s.events = [] → s.busy = false → step s = .next s)

/-- R113, R42, R43: "the host sees the state before the command ... or the state after it ..., never a state in between". A
command that stays busy over `k + 1` reads of `STATUS`, each returning busy, leaves what `exec` leaves at once; only the
replies to those reads are added. -/
def Obligations.DelayedCommandEqualsPrompt : Prop :=
  ∀ (s : State) (w : Word) (i : Instr) (k : Nat) (rest : List Event),
    s.held = false → decode w = .legal i → check i s = none →
    s.events = .host (.wr32 .reg 0x00 w) false ::
      (List.replicate k (.host (.rd32 .reg 0x04) false) ++ .host (.rd32 .reg 0x04) true :: rest) →
    ∃ t : State, exec i { s with cmd := w, events := rest } = .next t ∧
      Host.Core.run Sys2Proof.core (k + 2) s =
        .next { t with replies := s.replies ++ List.replicate (k + 1) (.word 0x00000001#32) }

/-- Every step keeps a legal state legal: the capacity (R7), `STATUS` in one of its four conditions (R12), the four memories
canonical and inside their sizes (R37), a busy block with an accepted command in `CMD` (R112, R113) and a read of `STATUS`
owed (R153). -/
def Obligations.StepKeepsInvariant : Prop :=
  ∀ s t : State, s.Inv → step s = .next t → t.Inv

/-- R130: "Nothing in the block can fail after a command has been accepted": no legal state steps to a fault. -/
def Obligations.LegalStateNeverFaults : Prop :=
  ∀ (s : State) (f : Fault), s.Inv → step s ≠ .fault f

/-- From a legal state a step is refused only for a host transaction, and then either because it is no read of `STATUS` and no
read of `STATUS` has returned `BUSY = 0` since the issue of an accepted command (U2, R153) or because the block does not provide
it (U5, U6). -/
def Obligations.OnlyHostMovesRefused : Prop :=
  ∀ (s : State) (r : Refusal), s.Inv → step s = .refused r →
    ∃ (t : Transaction) (turn : Bool) (rest : List Event), s.events = .host t turn :: rest ∧
      ((s.unread = true ∧ t ≠ .rd32 .reg 0x04 ∧ r = .hostWhileBusy) ∨
        (provided s.maxPix t = false ∧ (r = .notProvided ∨ r = .reservedRegister)))

/-- R111 to R114 and R13, R14, R15, R19: every command answers a next state, rejected with the cause its check gives or done;
none writes `CMD`, `SEED`, `BUFLEN`, `PN`, `CAP` or `SRC`. (`X` and `PERM`, also operands of some commands by R55, are not in
this list: `GNEXT` changes `X`.) An accepted command leaves a read of `STATUS` owed (R153). -/
def Obligations.CommandsKeepCmdSeedBuflenPnCapSrc : Prop :=
  ∀ (i : Instr) (s : State), ∃ t : State, exec i s = .next t ∧
    t.status = (match check i s with
      | some e => statusRejected e
      | none => 0x00000002#32) ∧
    t.cmd = s.cmd ∧ t.seed = s.seed ∧ t.buflen = s.buflen ∧ t.pn = s.pn ∧ t.cap = s.cap ∧ t.src = s.src ∧
    t.events = s.events ∧ t.replies = s.replies ∧ t.resets = s.resets ∧
    t.unread = (s.unread || (check i s).isNone)

/-- R140: "every issue overwrites `DONE`, `ERR` and `ECODE`": a write to `CMD`, legal word or not, does the same after a rejection,
after a completion and on a block idle since reset; no error has to be cleared. -/
def Obligations.IssueOverwritesStatus : Prop :=
  ∀ (s : State) (w v : Word) (turn : Bool) (rest : List Event),
    s.held = false → statusBusyBit v = false → s.events = .host (.wr32 .reg 0x00 w) turn :: rest →
    step { s with status := v } = step s ∧ ∃ t : State, step s = .next t

/-! ### Rejections (60_exceptions.md) -/

/-- R133: a transform command with `BUFLEN mod 4 != 0` is rejected with `E_LEN4` (before the capacity is looked at: R138). -/
def Obligations.LengthNotMultipleOf4Rejected : Prop :=
  ∀ (s : State) (i : Instr) (alpha : Bool),
    i ∈ [Instr.xor alpha, .addE alpha, .addD alpha, .shufE, .shufD] → s.buflen.toNat % 4 ≠ 0 →
    exec i s = .next { s with status := 0x00000204#32 }

/-- R134: a transform command with `BUFLEN / 4 > MAXPIX`, or `PBUILD` or `PINV` with `PN > MAXPIX`, is rejected with `E_CAP`. -/
def Obligations.OverCapacityRejected : Prop :=
  ∀ s : State,
    (∀ (i : Instr) (alpha : Bool), i ∈ [Instr.xor alpha, .addE alpha, .addD alpha, .shufE, .shufD] →
      s.buflen.toNat % 4 = 0 → s.buflen.toNat / 4 > s.cap.toNat → exec i s = .next { s with status := 0x00000304#32 }) ∧
    (∀ i : Instr, i ∈ [Instr.pbuild, .pinv] → s.pn.toNat > s.cap.toNat →
      exec i s = .next { s with status := 0x00000304#32 })

/-- R135: `PINV` with some entry `PERM[i]`, `i < PN`, not less than `PN` is rejected with `E_PERM`, `INV` not touched; with
every entry in range it is accepted, repeated entries or not. -/
def Obligations.EntryOutOfRangeRejected : Prop :=
  ∀ s : State, s.pn.toNat ≤ s.cap.toNat →
    (∀ i < s.pn.toNat, s.pn.toNat ≤ (s.readPerm i).toNat → exec .pinv s = .next { s with status := 0x00000404#32 }) ∧
    ((∀ i < s.pn.toNat, (s.readPerm i).toNat < s.pn.toNat) →
      ∃ t : State, exec .pinv s = .next t ∧ t.status = 0x00000002#32)

/-! ### The generator (41_generator.md) -/

/-- R73: `GINIT` sets `X` to `SEED`; `STATUS` reads done; nothing else changes. -/
def Obligations.GinitReseeds : Prop :=
  ∀ s : State, exec .ginit s = .next { s with x := s.seed, status := 0x00000002#32, unread := true }

/-- R70, R71, R74: `GNEXT` sets `X` to `xs32(X)`, written here on numbers: a left shift by `k` is `× 2^k mod 2^32` at that
step, a right shift the floor of the quotient; nothing else changes. -/
def Obligations.GnextDraws : Prop :=
  ∀ s : State,
    let x := s.x.toNat
    let a := x ^^^ (x * 2 ^ 13 % 2 ^ 32)
    let b := a ^^^ (a / 2 ^ 17)
    let c := b ^^^ (b * 2 ^ 5 % 2 ^ 32)
    exec .gnext s = .next { s with x := BitVec.ofNat 32 c, status := 0x00000002#32, unread := true }

/-- R72: "The value returned by the k-th draw after a re-seed with seed `s` is `xs32` applied `k` times to `s`": `GINIT` then
`k` times `GNEXT`. -/
def Obligations.DrawSequenceFromSeed : Prop :=
  ∀ (s : State) (k : Nat),
    execSeq (.ginit :: List.replicate k .gnext) s = .next { s with x := xs32^[k] s.seed, status := 0x00000002#32, unread := true }

/-- R75: a generator seeded with 0 returns 0 at every draw; no flag is raised. -/
def Obligations.ZeroSeedStaysZero : Prop :=
  xs32 0 = 0 ∧
  ∀ (s : State) (k : Nat), s.seed = 0 →
    execSeq (.ginit :: List.replicate k .gnext) s = .next { s with x := 0, status := 0x00000002#32, unread := true }

/-- R77: `xs32` is a bijection, is 0 only at 0, and a non-zero seed never gives a zero draw. -/
def Obligations.StepFunctionBijective : Prop :=
  Function.Bijective xs32 ∧ (∀ x : Word, xs32 x = 0 → x = 0) ∧
  ∀ (seed : Word) (k : Nat), seed ≠ 0 → xs32^[k] seed ≠ 0

/-! ### Permutations (42_permutation.md) -/

/-- R80 to R82: `PBUILD` with `PN <= MAXPIX` leaves SCT2's Fisher-Yates permutation in the first `PN` entries of `PERM`, every
other entry as it was, and in `X` the generator after `max(PN - 1, 0)` draws from `SEED`; nothing else changes. -/
def Obligations.PbuildLeavesPermutation : Prop :=
  ∀ s : State, s.pn.toNat ≤ s.cap.toNat →
    ∃ m : Memory Word,
      exec .pbuild s = .next { s with x := xs32^[s.pn.toNat - 1] s.seed, perm := m, status := 0x00000002#32, unread := true } ∧
      ∀ i : Nat, Memory.read m i =
        if i < s.pn.toNat then some (BitVec.ofNat 32 (permutationOf s.pn.toNat s.seed i)) else Memory.read s.perm i

/-- R87: after each command that builds a permutation, of length `n = PN` for `PBUILD` and `n = BUFLEN / 4` for the shuffles,
`PERM[0 .. n-1]` is a bijection on `[0, n)`: every index appears exactly once, for every seed. -/
def Obligations.BuildLeavesBijection : Prop :=
  let bijection : State → Nat → Prop := fun t n =>
    (∀ i < n, (t.readPerm i).toNat < n) ∧ ∀ j < n, ∃! i : Nat, i < n ∧ (t.readPerm i).toNat = j
  ∀ s : State,
    (s.pn.toNat ≤ s.cap.toNat → ∃ t : State, exec .pbuild s = .next t ∧ bijection t s.pn.toNat) ∧
    (s.transformReady → ∃ t : State, exec .shufE s = .next t ∧ bijection t s.pixelCount) ∧
    (s.transformReady → ∃ t : State, exec .shufD s = .next t ∧ bijection t s.pixelCount)

/-- R83: `build(0)` writes no entry, `build(1)` writes `PERM[0] <- 0`, neither draws; `build(2)` makes one draw `v` and gives
`[0, 1]` when `v` is odd and `[1, 0]` when `v` is even. -/
def Obligations.DegenerateLengths : Prop :=
  ∀ s : State, s.pn.toNat ≤ s.cap.toNat →
    ∃ t : State, exec .pbuild s = .next t ∧
      (s.pn.toNat = 0 → t = { s with x := s.seed, status := 0x00000002#32, unread := true }) ∧
      (s.pn.toNat = 1 → t.x = s.seed ∧ t.perm = Memory.write s.perm 0 0) ∧
      (s.pn.toNat = 2 → t.x = xs32 s.seed ∧
        ((xs32 s.seed).toNat % 2 = 1 → t.readPerm 0 = 0#32 ∧ t.readPerm 1 = 1#32) ∧
        ((xs32 s.seed).toNat % 2 = 0 → t.readPerm 0 = 1#32 ∧ t.readPerm 1 = 0#32)) ∧
      ∀ i : Nat, s.pn.toNat ≤ i → Memory.read t.perm i = Memory.read s.perm i

/-- R89: with `SEED = 0` the permutation is the rotation `PERM[d] = (d + 1) mod n`, and a shuffle moves every pixel one place
toward index 0 and pixel 0 to the end. -/
def Obligations.ZeroSeedRotates : Prop :=
  ∀ s : State, s.seed = 0 →
    (s.pn.toNat ≤ s.cap.toNat → ∃ t : State, exec .pbuild s = .next t ∧
      ∀ d < s.pn.toNat, (t.readPerm d).toNat = (d + 1) % s.pn.toNat) ∧
    (s.transformReady → ∃ t : State, exec .shufE s = .next t ∧
      ∀ d < s.pixelCount, pixelOf t.readDst d = pixelOf s.readSrc ((d + 1) % s.pixelCount))

/-- R85, R86: `PINV` with `PN <= MAXPIX` and every entry below `PN` completes; `INV[t]` ends as the largest `i` with
`PERM[i] = t`, an index no entry names keeps its contents, and nothing else changes. -/
def Obligations.PinvLeavesLastIndex : Prop :=
  ∀ s : State, s.pn.toNat ≤ s.cap.toNat → (∀ i < s.pn.toNat, (s.readPerm i).toNat < s.pn.toNat) →
    ∃ m : Memory Word, exec .pinv s = .next { s with inv := m, status := 0x00000002#32, unread := true } ∧
      (∀ i < s.pn.toNat, (∀ j, i < j → j < s.pn.toNat → s.readPerm j ≠ s.readPerm i) →
        Memory.read m (s.readPerm i).toNat = some (BitVec.ofNat 32 i)) ∧
      ∀ t : Nat, (∀ i < s.pn.toNat, (s.readPerm i).toNat ≠ t) → Memory.read m t = Memory.read s.inv t

/-- R88: inverting a bijection: `INV[PERM[i]] = i`, `PERM[INV[j]] = j`, `INV` is a bijection on `[0, n)`, and it depends
neither on what `INV` held before nor on the order of the pass. -/
def Obligations.PinvInvertsBijection : Prop :=
  ∀ s : State, s.pn.toNat ≤ s.cap.toNat → (∀ i < s.pn.toNat, (s.readPerm i).toNat < s.pn.toNat) →
    (∀ i < s.pn.toNat, ∀ j < s.pn.toNat, s.readPerm i = s.readPerm j → i = j) →
    ∃ t : State, exec .pinv s = .next t ∧
      (∀ i < s.pn.toNat, (t.readInv (t.readPerm i).toNat).toNat = i) ∧
      (∀ j < s.pn.toNat, (t.readPerm (t.readInv j).toNat).toNat = j) ∧
      (∀ j < s.pn.toNat, (t.readInv j).toNat < s.pn.toNat) ∧
      (∀ i < s.pn.toNat, ∃! j : Nat, j < s.pn.toNat ∧ (t.readInv j).toNat = i) ∧
      ∀ (old : Memory Word) (order : List Nat), order.Perm (List.range s.pn.toNat) →
        ∀ j < s.pn.toNat,
          Memory.read (order.foldl (fun m i => Memory.write m (s.readPerm i).toNat (BitVec.ofNat 32 i)) old) j =
            Memory.read t.inv j

/-- R88, R155: `PBUILD` then `PINV` with the same `PN`: the inverse composed with the permutation is the identity; `PINV`
leaves `X` alone. -/
def Obligations.PinvAfterPbuildIsInverse : Prop :=
  ∀ s : State, s.pn.toNat ≤ s.cap.toNat →
    ∃ t u : State, exec .pbuild s = .next t ∧ exec .pinv t = .next u ∧ u.x = t.x ∧ u.perm = t.perm ∧
      ∀ i < s.pn.toNat, (u.readInv (u.readPerm i).toNat).toNat = i ∧ (u.readPerm (u.readInv i).toNat).toNat = i

/-! ### Byte commands (43_byte_transform.md) -/

/-- R90, R91: `XOR` with a legal `BUFLEN`: each of the first `BUFLEN` bytes of `DST` is the `SRC` byte XOR `SEED[7:0]`, the alpha
byte copied when `ALPHA` is 0; every other byte of `DST` and everything else but `STATUS` is unchanged. -/
def Obligations.XorCommandResult : Prop :=
  ∀ (s : State) (alpha : Bool), s.transformReady →
    ∃ d : Memory Byte, exec (.xor alpha) s = .next { s with dst := d, status := 0x00000002#32, unread := true } ∧
      ∀ a : Nat, Memory.read d a =
        if a < s.buflen.toNat then
          some (if a % 4 = 3 ∧ alpha = false then s.readSrc a else s.readSrc a ^^^ s.seed.extractLsb' 0 8)
        else Memory.read s.dst a

/-- R90, R92: `ADD.E`: `(byte + key) mod 256` with `key = SEED[7:0]`; the frame as for `XOR`. -/
def Obligations.AddEncryptCommandResult : Prop :=
  ∀ (s : State) (alpha : Bool), s.transformReady →
    ∃ d : Memory Byte, exec (.addE alpha) s = .next { s with dst := d, status := 0x00000002#32, unread := true } ∧
      ∀ a : Nat, Memory.read d a =
        if a < s.buflen.toNat then
          some (if a % 4 = 3 ∧ alpha = false then s.readSrc a
            else BitVec.ofNat 8 (((s.readSrc a).toNat + s.seed.toNat % 256) % 256))
        else Memory.read s.dst a

/-- R90, R93: `ADD.D`: `(byte - key + 256) mod 256` with `key = SEED[7:0]`; the frame as for `XOR`. -/
def Obligations.AddDecryptCommandResult : Prop :=
  ∀ (s : State) (alpha : Bool), s.transformReady →
    ∃ d : Memory Byte, exec (.addD alpha) s = .next { s with dst := d, status := 0x00000002#32, unread := true } ∧
      ∀ a : Nat, Memory.read d a =
        if a < s.buflen.toNat then
          some (if a % 4 = 3 ∧ alpha = false then s.readSrc a
            else BitVec.ofInt 8 ((((s.readSrc a).toNat : Int) - (s.seed.toNat % 256 : Nat) + 256) % 256))
        else Memory.read s.dst a

/-- R94: `XOR` then `XOR`, `ADD.E` then `ADD.D`, `ADD.D` then `ADD.E`, with the same `SEED[7:0]` and the same `ALPHA`, the host
waiting for completion and copying `DST` back to `SRC` in between (and, if it likes, writing a `SEED` with the same low byte),
return the buffer; with different `ALPHA` values not in general. -/
def Obligations.ByteRoundTrip : Prop :=
  (∀ (s : State) (alpha : Bool) (i j : Instr) (seed : Word) (delay : Nat),
    (i, j) ∈ [(Instr.xor alpha, Instr.xor alpha), (.addE alpha, .addD alpha), (.addD alpha, .addE alpha)] →
    s.transformReady → seed.extractLsb' 0 8 = s.seed.extractLsb' 0 8 →
    ∃ t t₁ t₂ u : State, exec i s = .next t ∧ waitDone delay t = .returned 0x00000002#32 t₁ ∧
      copyBack 0 s.buflen.toNat t₁ = .returned () t₂ ∧
      exec j { t₂ with seed := seed } = .next u ∧ ∀ k < s.buflen.toNat, u.readDst k = s.readSrc k) ∧
  ∃ (s t t₁ t₂ u : State) (k : Nat), s.transformReady ∧ exec (.xor true) s = .next t ∧
    waitDone 0 t = .returned 0x00000002#32 t₁ ∧ copyBack 0 s.buflen.toNat t₁ = .returned () t₂ ∧
    exec (.xor false) t₂ = .next u ∧ k < s.buflen.toNat ∧ u.readDst k ≠ s.readSrc k

/-- R95: with `SEED[7:0] = 0` all three byte commands copy `SRC[0 .. BUFLEN-1]` to `DST` unchanged and complete like any other. -/
def Obligations.ZeroKeyByteCopies : Prop :=
  ∀ (s : State) (alpha : Bool) (i : Instr), i ∈ [Instr.xor alpha, .addE alpha, .addD alpha] →
    s.transformReady → s.seed.extractLsb' 0 8 = 0#8 →
    ∃ d : Memory Byte, exec i s = .next { s with dst := d, status := 0x00000002#32, unread := true } ∧
      ∀ a : Nat, Memory.read d a = if a < s.buflen.toNat then some (s.readSrc a) else Memory.read s.dst a

/-! ### Shuffle commands (44_pixel_shuffle.md) -/

/-- R100, R101: `SHUF.E` with a legal `BUFLEN`, `n = BUFLEN / 4`: output pixel `d` is input pixel `PERM[d]`, whole; `PERM` holds
the permutation and `X` the generator after `max(n - 1, 0)` draws; nothing else changes. -/
def Obligations.ShuffleEncryptResult : Prop :=
  ∀ s : State, s.transformReady →
    ∃ (m : Memory Word) (d : Memory Byte),
      exec .shufE s =
        .next { s with x := xs32^[s.pixelCount - 1] s.seed, perm := m, dst := d, status := 0x00000002#32, unread := true } ∧
      (∀ i : Nat, Memory.read m i =
        if i < s.pixelCount then some (BitVec.ofNat 32 (permutationOf s.pixelCount s.seed i)) else Memory.read s.perm i) ∧
      ∀ a : Nat, Memory.read d a =
        if a < s.buflen.toNat then some (s.readSrc (4 * permutationOf s.pixelCount s.seed (a / 4) + a % 4))
        else Memory.read s.dst a

/-- R100, R102: `SHUF.D`: the same permutation in `PERM`, its inverse in `INV`, and output pixel `PERM[j]` is input pixel `j`,
whole; every index is some `PERM[j]`; nothing else changes. -/
def Obligations.ShuffleDecryptResult : Prop :=
  ∀ s : State, s.transformReady →
    ∃ (m v : Memory Word) (d : Memory Byte),
      exec .shufD s =
        .next { s with
          x := xs32^[s.pixelCount - 1] s.seed, perm := m, inv := v, dst := d, status := 0x00000002#32, unread := true } ∧
      (∀ i : Nat, Memory.read m i =
        if i < s.pixelCount then some (BitVec.ofNat 32 (permutationOf s.pixelCount s.seed i)) else Memory.read s.perm i) ∧
      (∀ j < s.pixelCount, Memory.read v (permutationOf s.pixelCount s.seed j) = some (BitVec.ofNat 32 j)) ∧
      (∀ i : Nat, s.pixelCount ≤ i → Memory.read v i = Memory.read s.inv i) ∧
      (∀ j < s.pixelCount, ∀ c < 4,
        Memory.read d (4 * permutationOf s.pixelCount s.seed j + c) = some (s.readSrc (4 * j + c))) ∧
      (∀ a : Nat, s.buflen.toNat ≤ a → Memory.read d a = Memory.read s.dst a) ∧
      ∀ i < s.pixelCount, ∃ j < s.pixelCount, permutationOf s.pixelCount s.seed j = i

/-- R104: `SHUF.E` then `SHUF.D`, and `SHUF.D` then `SHUF.E`, with the same `SEED` and `BUFLEN`, the host waiting for completion and
copying `DST` back to `SRC` in between, return the buffer. -/
def Obligations.ShuffleRoundTrip : Prop :=
  ∀ (s : State) (i j : Instr) (delay : Nat), (i, j) ∈ [(Instr.shufE, Instr.shufD), (.shufD, .shufE)] → s.transformReady →
    ∃ t t₁ t₂ u : State, exec i s = .next t ∧ waitDone delay t = .returned 0x00000002#32 t₁ ∧
      copyBack 0 s.buflen.toNat t₁ = .returned () t₂ ∧ exec j t₂ = .next u ∧
      ∀ k < s.buflen.toNat, u.readDst k = s.readSrc k

/-- R105: the multiset of pixels in `DST[0 .. BUFLEN-1]` equals that of `SRC[0 .. BUFLEN-1]`: no pixel value is changed, made or
lost. -/
def Obligations.ShuffleRearrangesPixels : Prop :=
  ∀ (s : State) (i : Instr), i ∈ [Instr.shufE, .shufD] → s.transformReady →
    ∃ t : State, exec i s = .next t ∧
      ((List.range s.pixelCount).map (pixelOf t.readDst)).Perm ((List.range s.pixelCount).map (pixelOf s.readSrc))

/-- R116, R24: the output of a transform depends only on `SEED`, `BUFLEN`, the capacity, the first `BUFLEN` bytes of `SRC` and
the command: two states that agree on those, whatever else they hold, give the same output bytes. -/
def Obligations.TransformDependsOnOperandsOnly : Prop :=
  ∀ (s₁ s₂ : State) (alpha : Bool) (i : Instr), i ∈ [Instr.xor alpha, .addE alpha, .addD alpha, .shufE, .shufD] →
    s₁.seed = s₂.seed → s₁.buflen = s₂.buflen → s₁.cap = s₂.cap →
    (∀ a < s₁.buflen.toNat, s₁.readSrc a = s₂.readSrc a) → s₁.transformReady →
    ∃ t₁ t₂ : State, exec i s₁ = .next t₁ ∧ exec i s₂ = .next t₂ ∧ t₁.status = t₂.status ∧
      ∀ a < s₁.buflen.toNat, Memory.read t₁.dst a = Memory.read t₂.dst a ∧ (Memory.read t₁.dst a).isSome = true

/-! ### The host's transactions (20_memory.md, 10_state.md) -/

/-- R153, U2: "From the issue of an accepted command until a read of `STATUS` returns `BUSY = 0`", any host transaction but a read
of `STATUS` has no meaning: refused, also after the command has completed. -/
def Obligations.HostRefusedUntilBusyReadZero : Prop :=
  ∀ (s : State) (t : Transaction) (turn : Bool) (rest : List Event),
    s.busy = true ∨ s.unread = true → t ≠ .rd32 .reg 0x04 → s.events = .host t turn :: rest →
    step s = .refused .hostWhileBusy

/-- R12, R153: a read of `STATUS` is allowed always, returns `STATUS` (the reply is added to the model's record, log entry 6) and
changes nothing of the block; one that returns `BUSY = 0` ends the host's wait, one that returns `BUSY = 1` does not. -/
def Obligations.StatusReadAlwaysAllowed : Prop :=
  ∀ (s : State) (rest : List Event), s.events = .host (.rd32 .reg 0x04) false :: rest →
    (s.busy = true → step s = .next { s with events := rest, replies := s.replies ++ [.word s.status] }) ∧
    (s.busy = false → step s = .next { s with events := rest, replies := s.replies ++ [.word s.status], unread := false })

/-- R56: `WAIT` is "repeated until it returns `BUSY = 0`": from every state and for every delay, a `WAIT` that returns has read
`BUSY = 0`, and the host owes no further read. From a legal state it does return: what `exec` leaves when the block was busy, all
but the replies as it was when it was not. -/
def Obligations.WaitEndsOnBusyZero : Prop :=
  (∀ (s t : State) (delay : Nat) (w : Word), waitDone delay s = .returned w t →
    statusBusyBit w = false ∧ t.busy = false ∧ t.unread = false) ∧
  (∀ (s : State) (delay : Nat) (i : Instr), s.busy = true → decode s.cmd = .legal i →
    ∃ (t : State) (r : List Reply), exec i s = .next t ∧
      waitDone delay s = .returned t.status { t with replies := r, unread := false }) ∧
  (∀ (s : State) (delay : Nat), s.busy = false →
    waitDone delay s = .returned s.status { s with replies := s.replies ++ [.word s.status], unread := false }) ∧
  ∀ (s : State) (delay : Nat), s.Inv → ∃ (w : Word) (t : State), waitDone delay s = .returned w t

/-- R33: which transactions the block provides to a host that owes no read of `STATUS`; any other is refused. -/
def Obligations.ProvidedTransactions : Prop :=
  ∀ (s : State) (t : Transaction) (turn : Bool) (rest : List Event),
    s.held = false → s.events = .host t turn :: rest →
    let isReg : Nat → Prop := fun a => a ∈ [0x00, 0x04, 0x08, 0x0C, 0x10, 0x14, 0x18]
    let isWord : Nat → Prop := fun a => a % 4 = 0 ∧ a + 3 < 4 * s.cap.toNat
    let allowed : Prop := match t with
      | .rd32 .reg a => isReg a
      | .wr32 .reg a _ => isReg a
      | .rd32 .src a => isWord a
      | .wr32 .src a _ => isWord a
      | .rd32 .dst a => isWord a
      | .wr32 .dst a _ => isWord a
      | .rd8 .src a => a < 4 * s.cap.toNat
      | .wr8 .src a _ => a < 4 * s.cap.toNat
      | .rd8 .dst a => a < 4 * s.cap.toNat
      | .wr8 .dst a _ => a < 4 * s.cap.toNat
      | .rde .perm i => i < s.cap.toNat
      | .wre .perm i _ => i < s.cap.toNat
      | .rde .inv i => i < s.cap.toNat
      | .wre .inv i _ => i < s.cap.toNat
      | _ => False
    (allowed → ∃ u : State, step s = .next u) ∧
    (¬ allowed → step s = .refused .notProvided ∨ step s = .refused .reservedRegister)

/-- R10, U6: a 32-bit access to a reserved `REG` offset, 0x1C to 0xFF, is refused under its own name. -/
def Obligations.ReservedRegistersRefused : Prop :=
  ∀ (s : State) (a : Nat) (w : Word) (t : Transaction) (turn : Bool) (rest : List Event),
    s.held = false → t ∈ [Transaction.rd32 .reg a, .wr32 .reg a w] → a % 4 = 0 → 0x1C ≤ a → a ≤ 0xFF →
    s.events = .host t turn :: rest → step s = .refused .reservedRegister

/-- R10, R36: a host read of a register returns its value and has no side effect. -/
def Obligations.RegisterReadsReturnValue : Prop :=
  ∀ (s : State) (a : Nat) (v : Word) (turn : Bool) (rest : List Event), s.held = false →
    (a, v) ∈ [(0x00, s.cmd), (0x04, s.status), (0x08, s.seed), (0x0C, s.buflen), (0x10, s.pn), (0x14, s.x), (0x18, s.cap)] →
    s.events = .host (.rd32 .reg a) turn :: rest →
    step s = .next { s with events := rest, replies := s.replies ++ [.word v] }

/-- R10, R36, U7: a host write to `SEED`, `BUFLEN` or `PN` only stores; one to `STATUS`, `X` or `CAP` is ignored. -/
def Obligations.RegisterWritesStore : Prop :=
  ∀ (s : State) (w : Word) (turn : Bool) (rest : List Event), s.held = false →
    (s.events = .host (.wr32 .reg 0x08 w) turn :: rest → step s = .next { s with seed := w, events := rest }) ∧
    (s.events = .host (.wr32 .reg 0x0C w) turn :: rest → step s = .next { s with buflen := w, events := rest }) ∧
    (s.events = .host (.wr32 .reg 0x10 w) turn :: rest → step s = .next { s with pn := w, events := rest }) ∧
    (∀ a ∈ [0x04, 0x14, 0x18], s.events = .host (.wr32 .reg a w) turn :: rest → step s = .next { s with events := rest })

/-- R33, R36, R19 to R22: a host write of one byte or entry stores it and leaves every other location and everything else; a
read returns the location and changes nothing. -/
def Obligations.MemoryAccessesStoreAndReturn : Prop :=
  ∀ (s : State) (a : Nat) (b : Byte) (w : Word) (turn : Bool) (rest : List Event), s.held = false →
    (a < 4 * s.cap.toNat →
      (s.events = .host (.rd8 .src a) turn :: rest →
        step s = .next { s with events := rest, replies := s.replies ++ [.byte (s.readSrc a)] }) ∧
      (s.events = .host (.rd8 .dst a) turn :: rest →
        step s = .next { s with events := rest, replies := s.replies ++ [.byte (s.readDst a)] }) ∧
      (s.events = .host (.wr8 .src a b) turn :: rest → ∃ m : Memory Byte,
        step s = .next { s with src := m, events := rest } ∧
          ∀ k, Memory.read m k = if k = a then some b else Memory.read s.src k) ∧
      (s.events = .host (.wr8 .dst a b) turn :: rest → ∃ m : Memory Byte,
        step s = .next { s with dst := m, events := rest } ∧
          ∀ k, Memory.read m k = if k = a then some b else Memory.read s.dst k)) ∧
    (a < s.cap.toNat →
      (s.events = .host (.rde .perm a) turn :: rest →
        step s = .next { s with events := rest, replies := s.replies ++ [.word (s.readPerm a)] }) ∧
      (s.events = .host (.rde .inv a) turn :: rest →
        step s = .next { s with events := rest, replies := s.replies ++ [.word (s.readInv a)] }) ∧
      (s.events = .host (.wre .perm a w) turn :: rest → ∃ m : Memory Word,
        step s = .next { s with perm := m, events := rest } ∧
          ∀ k, Memory.read m k = if k = a then some w else Memory.read s.perm k) ∧
      (s.events = .host (.wre .inv a w) turn :: rest → ∃ m : Memory Word,
        step s = .next { s with inv := m, events := rest } ∧
          ∀ k, Memory.read m k = if k = a then some w else Memory.read s.inv k))

/-- R32: the 32-bit view of `SRC` and `DST` is little-endian: a word write stores `w[7:0]` at the lowest offset and leaves every
other byte; a word read returns the number `B[a] + B[a+1] × 2^8 + B[a+2] × 2^16 + B[a+3] × 2^24`. -/
def Obligations.WordViewLittleEndian : Prop :=
  ∀ (s : State) (a : Nat) (w : Word) (turn : Bool) (rest : List Event),
    s.held = false → a % 4 = 0 → a + 3 < 4 * s.cap.toNat →
    (s.events = .host (.wr32 .src a w) turn :: rest → ∃ m : Memory Byte,
      step s = .next { s with src := m, events := rest } ∧
        ∀ k, Memory.read m k =
          if a ≤ k ∧ k ≤ a + 3 then some (BitVec.ofNat 8 (w.toNat / 2 ^ (8 * (k - a)))) else Memory.read s.src k) ∧
    (s.events = .host (.wr32 .dst a w) turn :: rest → ∃ m : Memory Byte,
      step s = .next { s with dst := m, events := rest } ∧
        ∀ k, Memory.read m k =
          if a ≤ k ∧ k ≤ a + 3 then some (BitVec.ofNat 8 (w.toNat / 2 ^ (8 * (k - a)))) else Memory.read s.dst k) ∧
    (s.events = .host (.rd32 .src a) turn :: rest → ∃ v : Word,
      step s = .next { s with events := rest, replies := s.replies ++ [.word v] } ∧
        v.toNat = (s.readSrc a).toNat + (s.readSrc (a + 1)).toNat * 2 ^ 8 + (s.readSrc (a + 2)).toNat * 2 ^ 16 +
          (s.readSrc (a + 3)).toNat * 2 ^ 24) ∧
    (s.events = .host (.rd32 .dst a) turn :: rest → ∃ v : Word,
      step s = .next { s with events := rest, replies := s.replies ++ [.word v] } ∧
        v.toNat = (s.readDst a).toNat + (s.readDst (a + 1)).toNat * 2 ^ 8 + (s.readDst (a + 2)).toNat * 2 ^ 16 +
          (s.readDst (a + 3)).toNat * 2 ^ 24)

/-! ### The host driver (40_seed_derivation.md, 45_transform_engine.md) -/

/-- R62: a key is numeric exactly when it is an optional `-` followed by one or more decimal digits and nothing else. -/
def Obligations.NumericKeyGrammar : Prop :=
  ∀ key : Key, isNumeric key = true ↔
    ∃ ds : List CodeUnit, ds ≠ [] ∧ (∀ c ∈ ds, 0x0030 ≤ c.toNat ∧ c.toNat ≤ 0x0039) ∧ (key = ds ∨ key = 0x002D#16 :: ds)

/-- R63: the seed of a numeric key is the exact decimal value of its digits modulo 2^32, with or without the leading `-`. -/
def Obligations.NumericSeedIsDecimalValue : Prop :=
  ∀ ds : List CodeUnit, ds ≠ [] → (∀ c ∈ ds, 0x0030 ≤ c.toNat ∧ c.toNat ≤ 0x0039) →
    (deriveSeed ds).toNat = Nat.ofDigits 10 (ds.reverse.map (fun c => c.toNat - 0x0030)) % 2 ^ 32 ∧
    deriveSeed (0x002D#16 :: ds) = deriveSeed ds

/-- R64: the hash of no code units is 0x811C9DC5; each further code unit is absorbed whole, exclusive or and then times
0x01000193 modulo 2^32; a key that is not numeric has its hash as its seed. R66, R67: the key byte is the seed's low byte, 0xC5
for the empty key. -/
def Obligations.HashSeedAbsorbsCodeUnits : Prop :=
  hashSeed [] = 0x811C9DC5#32 ∧
  (∀ (key : Key) (c : CodeUnit),
    (hashSeed (key ++ [c])).toNat = (((hashSeed key).toNat ^^^ c.toNat) * 0x01000193) % 2 ^ 32) ∧
  (∀ key : Key, isNumeric key = false → deriveSeed key = hashSeed key) ∧
  (∀ key : Key, (key8OfKey key).toNat = (deriveSeed key).toNat % 256) ∧ deriveSeed [] = 0x811C9DC5#32 ∧ key8OfKey [] = 0xC5#8

/-- R117, R118: the driver's checks c1 to c4 in their order; a failure at c1 to c3 leaves the block exactly as it was, one at
c4 has only read `CAP`. -/
def Obligations.DriverChecksInOrder : Prop :=
  ∀ (s : State) (delay : Nat) (buffer : List Byte) (req : Request),
    ((∃ v, req.operation = .unsupported v) → transform delay buffer req s = .invalid .unsupportedOperation s) ∧
    (req.operation = .shuffle → req.key = [] → transform delay buffer req s = .invalid .emptyKey s) ∧
    ((∀ v, req.operation ≠ .unsupported v) → (req.operation = .shuffle → req.key ≠ []) → buffer.length % 4 ≠ 0 →
      transform delay buffer req s = .invalid .lengthNotMultipleOf4 s) ∧
    ((∀ v, req.operation ≠ .unsupported v) → (req.operation = .shuffle → req.key ≠ []) → buffer.length % 4 = 0 →
      s.held = false → buffer.length / 4 > s.cap.toNat →
      transform delay buffer req s = .invalid .tooLarge { s with replies := s.replies ++ [.word s.cap] })

/-- R117, R115: for a request its checks pass, on an idle block and for every delay of the block, `transform` returns a buffer
of the same length, each byte as the operation, direction, key and `includeAlpha` say. -/
def Obligations.TransformReturnsReference : Prop :=
  ∀ (s : State) (delay : Nat) (buffer : List Byte) (req : Request),
    s.Inv → s.held = false → (∀ v, req.operation ≠ .unsupported v) → (req.operation = .shuffle → req.key ≠ []) →
    buffer.length % 4 = 0 → buffer.length / 4 ≤ s.cap.toNat →
    ∃ (out : List Byte) (t : State), transform delay buffer req s = .returned out t ∧ t.held = false ∧
      out.length = buffer.length ∧ ∀ k < buffer.length, transformed buffer req k (out.getD k 0)

/-- R121: "decrypt(encrypt(X)) == X for every mode": for every buffer `transform` accepts, every key (non-empty for SHUFFLE)
and every `includeAlpha`, and for every delay of the block. -/
def Obligations.DecryptAfterEncrypt : Prop :=
  ∀ (s : State) (d₁ d₂ : Nat) (buffer : List Byte) (op : Operation) (key : Key) (alpha : Bool),
    s.Inv → s.held = false → op ∈ [Operation.xor, .add, .shuffle] → (op = .shuffle → key ≠ []) →
    buffer.length % 4 = 0 → buffer.length / 4 ≤ s.cap.toNat →
    ∃ (out : List Byte) (t u : State),
      transform d₁ buffer { operation := op, direction := .encrypt, key := key, includeAlpha := alpha } s = .returned out t ∧
      transform d₂ out { operation := op, direction := .decrypt, key := key, includeAlpha := alpha } t = .returned buffer u

/-- R119: `applyByteOp` and `applyShuffle` with a buffer of whole pixels within the capacity, for every delay of the block, return
a buffer of the same length, each byte as the operation, direction, key material and `includeAlpha` say. -/
def Obligations.UnitFunctionsReturn : Prop :=
  ∀ (s : State) (delay : Nat) (buffer : List Byte) (direction : Direction), s.Inv → s.held = false →
    buffer.length % 4 = 0 → buffer.length / 4 ≤ s.cap.toNat →
    (∀ (op : Operation) (key8 : Byte) (alpha : Bool), op ∈ [Operation.xor, .add] →
      ∃ (out : List Byte) (t : State), applyByteOp delay buffer op direction key8 alpha s = .returned out t ∧ t.held = false ∧
        out.length = buffer.length ∧
        ∀ k < buffer.length, transformedBy buffer op direction alpha (key8.setWidth 32) k (out.getD k 0)) ∧
    ∀ seed : Word,
      ∃ (out : List Byte) (t : State), applyShuffle delay buffer direction seed s = .returned out t ∧ t.held = false ∧
        out.length = buffer.length ∧
        ∀ k < buffer.length, transformedBy buffer .shuffle direction false seed k (out.getD k 0)

/-- R120, R72, R88: after `makeGenerator(seed)` the k-th `next` returns `xs32` applied `k` times to `seed`, whatever the delays;
`buildPermutation(n, seed)` returns SCT2's permutation; `invertPermutation` of any permutation of `[0, n)`, `n` within the capacity,
returns its inverse. -/
def Obligations.LibraryFunctionsReturn : Prop :=
  ∀ (s : State) (delay : Nat), s.Inv → s.held = false →
    (∀ (seed : Word) (delays : List Nat), ∃ t u : State, makeGenerator delay seed s = .returned () t ∧
      nextDraws delays t = .returned ((List.range delays.length).map (fun k => xs32^[k + 1] seed)) u) ∧
    (∀ n seed : Word, n.toNat ≤ s.cap.toNat → ∃ t : State, t.held = false ∧
      buildPermutation delay n seed s =
        .returned ((List.range n.toNat).map (fun i => BitVec.ofNat 32 (permutationOf n.toNat seed i))) t) ∧
    ∀ p : List Word, p.length ≤ s.cap.toNat → (p.map BitVec.toNat).Perm (List.range p.length) →
      ∃ (v : List Word) (t : State), invertPermutation delay p s = .returned v t ∧ t.held = false ∧ v.length = p.length ∧
        ∀ i < p.length, v.getD (p.getD i 0).toNat 0 = BitVec.ofNat 32 i ∧ p.getD (v.getD i 0).toNat 0 = BitVec.ofNat 32 i

/-- R119, R120, R136, R138: `applyByteOp` and `applyShuffle` fail with `LengthNotMultipleOf4` when the buffer is no whole number of
pixels, otherwise with `TooLarge` when it is over the capacity; `buildPermutation` and `invertPermutation` fail with `TooLarge` above
the capacity; `invertPermutation` of a sequence within it with an entry not below its length fails with `NotAPermutation`. The
block's rejection left its results as they were, and the host owes no read of `STATUS`. (What is loaded of an argument larger than
its memory, and a length of 2^32 or more, are the model's choice: log entry 21.) -/
def Obligations.LibraryRejectionsReported : Prop :=
  ∀ (s : State) (delay : Nat), s.Inv → s.held = false →
    (∀ (buffer : List Byte) (direction : Direction) (op : Operation) (key8 : Byte) (alpha : Bool) (seed : Word)
      (cause : InvalidCause), op ∈ [Operation.xor, .add] →
      ((buffer.length % 4 ≠ 0 ∧ cause = .lengthNotMultipleOf4) ∨
        (buffer.length % 4 = 0 ∧ buffer.length / 4 > s.cap.toNat ∧ cause = .tooLarge)) →
      (∃ t : State, applyByteOp delay buffer op direction key8 alpha s = .invalid cause t ∧ t.held = false ∧
        t.x = s.x ∧ t.dst = s.dst ∧ t.perm = s.perm ∧ t.inv = s.inv) ∧
      ∃ t : State, applyShuffle delay buffer direction seed s = .invalid cause t ∧ t.held = false ∧
        t.x = s.x ∧ t.dst = s.dst ∧ t.perm = s.perm ∧ t.inv = s.inv) ∧
    (∀ seed n : Word, n.toNat > s.cap.toNat →
      ∃ t : State, buildPermutation delay n seed s = .invalid .tooLarge t ∧ t.held = false ∧
        t.x = s.x ∧ t.src = s.src ∧ t.dst = s.dst ∧ t.perm = s.perm ∧ t.inv = s.inv) ∧
    ∀ p : List Word,
      (p.length > s.cap.toNat → ∃ t : State, invertPermutation delay p s = .invalid .tooLarge t ∧ t.held = false ∧
        t.x = s.x ∧ t.src = s.src ∧ t.dst = s.dst ∧ t.inv = s.inv) ∧
      (p.length ≤ s.cap.toNat → (∃ e ∈ p, p.length ≤ e.toNat) →
        ∃ t : State, invertPermutation delay p s = .invalid .notAPermutation t ∧ t.held = false ∧
          t.x = s.x ∧ t.src = s.src ∧ t.dst = s.dst ∧ t.inv = s.inv)
end

