-- ==== Sys2Proof/Laws/Decode.lean ====
section
/-! SUPPORT. The decoder on large words, and the six-bit words it can accept. -/

namespace Sys2Proof

/-- A word whose `RSV` is 0 is a six-bit number. -/
theorem Word.toNat_lt_of_rsv {w : Word} (h : Word.rsv w = 0) : w.toNat < 64 := by
  have := congrArg BitVec.toNat h
  simp [Word.rsv, BitVec.extractLsb'_toNat, Nat.shiftRight_eq_div_pow] at this
  have hw := w.isLt
  omega

/-- A word of 64 or more has a non-zero `RSV` and is illegal (R51). -/
theorem decode_of_high {w : Word} (h : 64 ≤ w.toNat) : decode w = .illegal .reservedBits := by
  unfold decode
  rw [if_pos]
  intro h'
  have := Word.toNat_lt_of_rsv h'
  omega

/-- A legal word is a six-bit number, so a fact about legal words is a fact about 64 words. -/
theorem lt_of_decode_legal {w : Word} {i : Instr} (h : decode w = .legal i) : w.toNat < 64 := by
  by_contra hn
  rw [decode_of_high (by omega)] at h
  cases h

/-- A six-bit word is one of the numerals below 64. -/
theorem exists_numeral_of_lt {w : Word} (h : w.toNat < 64) : ∃ n < 64, w = BitVec.ofNat 32 n := ⟨w.toNat, h, by simp⟩

end Sys2Proof
end

