-- ==== Sys2Proof/Laws/State.lean ====
section
/-! SUPPORT. One lemma per field per state update, true by rfl, so that no proof unfolds a record update. -/

namespace Sys2Proof.Machine

variable (s : State)

/-! ### writeSrc -/

@[simp] theorem State.writeSrc_cmd (a : Nat) (b : Byte) : (s.writeSrc a b).cmd = s.cmd := rfl
@[simp] theorem State.writeSrc_status (a : Nat) (b : Byte) : (s.writeSrc a b).status = s.status := rfl
@[simp] theorem State.writeSrc_seed (a : Nat) (b : Byte) : (s.writeSrc a b).seed = s.seed := rfl
@[simp] theorem State.writeSrc_buflen (a : Nat) (b : Byte) : (s.writeSrc a b).buflen = s.buflen := rfl
@[simp] theorem State.writeSrc_pn (a : Nat) (b : Byte) : (s.writeSrc a b).pn = s.pn := rfl
@[simp] theorem State.writeSrc_x (a : Nat) (b : Byte) : (s.writeSrc a b).x = s.x := rfl
@[simp] theorem State.writeSrc_cap (a : Nat) (b : Byte) : (s.writeSrc a b).cap = s.cap := rfl
@[simp] theorem State.writeSrc_src (a : Nat) (b : Byte) : (s.writeSrc a b).src = Memory.write s.src a b := rfl
@[simp] theorem State.writeSrc_dst (a : Nat) (b : Byte) : (s.writeSrc a b).dst = s.dst := rfl
@[simp] theorem State.writeSrc_perm (a : Nat) (b : Byte) : (s.writeSrc a b).perm = s.perm := rfl
@[simp] theorem State.writeSrc_inv (a : Nat) (b : Byte) : (s.writeSrc a b).inv = s.inv := rfl
@[simp] theorem State.writeSrc_events (a : Nat) (b : Byte) : (s.writeSrc a b).events = s.events := rfl
@[simp] theorem State.writeSrc_replies (a : Nat) (b : Byte) : (s.writeSrc a b).replies = s.replies := rfl
@[simp] theorem State.writeSrc_resets (a : Nat) (b : Byte) : (s.writeSrc a b).resets = s.resets := rfl
@[simp] theorem State.writeSrc_unread (a : Nat) (b : Byte) : (s.writeSrc a b).unread = s.unread := rfl

/-! ### writeDst -/

@[simp] theorem State.writeDst_cmd (a : Nat) (b : Byte) : (s.writeDst a b).cmd = s.cmd := rfl
@[simp] theorem State.writeDst_status (a : Nat) (b : Byte) : (s.writeDst a b).status = s.status := rfl
@[simp] theorem State.writeDst_seed (a : Nat) (b : Byte) : (s.writeDst a b).seed = s.seed := rfl
@[simp] theorem State.writeDst_buflen (a : Nat) (b : Byte) : (s.writeDst a b).buflen = s.buflen := rfl
@[simp] theorem State.writeDst_pn (a : Nat) (b : Byte) : (s.writeDst a b).pn = s.pn := rfl
@[simp] theorem State.writeDst_x (a : Nat) (b : Byte) : (s.writeDst a b).x = s.x := rfl
@[simp] theorem State.writeDst_cap (a : Nat) (b : Byte) : (s.writeDst a b).cap = s.cap := rfl
@[simp] theorem State.writeDst_src (a : Nat) (b : Byte) : (s.writeDst a b).src = s.src := rfl
@[simp] theorem State.writeDst_dst (a : Nat) (b : Byte) : (s.writeDst a b).dst = Memory.write s.dst a b := rfl
@[simp] theorem State.writeDst_perm (a : Nat) (b : Byte) : (s.writeDst a b).perm = s.perm := rfl
@[simp] theorem State.writeDst_inv (a : Nat) (b : Byte) : (s.writeDst a b).inv = s.inv := rfl
@[simp] theorem State.writeDst_events (a : Nat) (b : Byte) : (s.writeDst a b).events = s.events := rfl
@[simp] theorem State.writeDst_replies (a : Nat) (b : Byte) : (s.writeDst a b).replies = s.replies := rfl
@[simp] theorem State.writeDst_resets (a : Nat) (b : Byte) : (s.writeDst a b).resets = s.resets := rfl
@[simp] theorem State.writeDst_unread (a : Nat) (b : Byte) : (s.writeDst a b).unread = s.unread := rfl

/-! ### writePerm -/

@[simp] theorem State.writePerm_cmd (i : Nat) (w : Word) : (s.writePerm i w).cmd = s.cmd := rfl
@[simp] theorem State.writePerm_status (i : Nat) (w : Word) : (s.writePerm i w).status = s.status := rfl
@[simp] theorem State.writePerm_seed (i : Nat) (w : Word) : (s.writePerm i w).seed = s.seed := rfl
@[simp] theorem State.writePerm_buflen (i : Nat) (w : Word) : (s.writePerm i w).buflen = s.buflen := rfl
@[simp] theorem State.writePerm_pn (i : Nat) (w : Word) : (s.writePerm i w).pn = s.pn := rfl
@[simp] theorem State.writePerm_x (i : Nat) (w : Word) : (s.writePerm i w).x = s.x := rfl
@[simp] theorem State.writePerm_cap (i : Nat) (w : Word) : (s.writePerm i w).cap = s.cap := rfl
@[simp] theorem State.writePerm_src (i : Nat) (w : Word) : (s.writePerm i w).src = s.src := rfl
@[simp] theorem State.writePerm_dst (i : Nat) (w : Word) : (s.writePerm i w).dst = s.dst := rfl
@[simp] theorem State.writePerm_perm (i : Nat) (w : Word) : (s.writePerm i w).perm = Memory.write s.perm i w := rfl
@[simp] theorem State.writePerm_inv (i : Nat) (w : Word) : (s.writePerm i w).inv = s.inv := rfl
@[simp] theorem State.writePerm_events (i : Nat) (w : Word) : (s.writePerm i w).events = s.events := rfl
@[simp] theorem State.writePerm_replies (i : Nat) (w : Word) : (s.writePerm i w).replies = s.replies := rfl
@[simp] theorem State.writePerm_resets (i : Nat) (w : Word) : (s.writePerm i w).resets = s.resets := rfl
@[simp] theorem State.writePerm_unread (i : Nat) (w : Word) : (s.writePerm i w).unread = s.unread := rfl

/-! ### writeInv -/

@[simp] theorem State.writeInv_cmd (i : Nat) (w : Word) : (s.writeInv i w).cmd = s.cmd := rfl
@[simp] theorem State.writeInv_status (i : Nat) (w : Word) : (s.writeInv i w).status = s.status := rfl
@[simp] theorem State.writeInv_seed (i : Nat) (w : Word) : (s.writeInv i w).seed = s.seed := rfl
@[simp] theorem State.writeInv_buflen (i : Nat) (w : Word) : (s.writeInv i w).buflen = s.buflen := rfl
@[simp] theorem State.writeInv_pn (i : Nat) (w : Word) : (s.writeInv i w).pn = s.pn := rfl
@[simp] theorem State.writeInv_x (i : Nat) (w : Word) : (s.writeInv i w).x = s.x := rfl
@[simp] theorem State.writeInv_cap (i : Nat) (w : Word) : (s.writeInv i w).cap = s.cap := rfl
@[simp] theorem State.writeInv_src (i : Nat) (w : Word) : (s.writeInv i w).src = s.src := rfl
@[simp] theorem State.writeInv_dst (i : Nat) (w : Word) : (s.writeInv i w).dst = s.dst := rfl
@[simp] theorem State.writeInv_perm (i : Nat) (w : Word) : (s.writeInv i w).perm = s.perm := rfl
@[simp] theorem State.writeInv_inv (i : Nat) (w : Word) : (s.writeInv i w).inv = Memory.write s.inv i w := rfl
@[simp] theorem State.writeInv_events (i : Nat) (w : Word) : (s.writeInv i w).events = s.events := rfl
@[simp] theorem State.writeInv_replies (i : Nat) (w : Word) : (s.writeInv i w).replies = s.replies := rfl
@[simp] theorem State.writeInv_resets (i : Nat) (w : Word) : (s.writeInv i w).resets = s.resets := rfl
@[simp] theorem State.writeInv_unread (i : Nat) (w : Word) : (s.writeInv i w).unread = s.unread := rfl

/-! ### reseed -/

@[simp] theorem State.reseed_cmd : (s.reseed).cmd = s.cmd := rfl
@[simp] theorem State.reseed_status : (s.reseed).status = s.status := rfl
@[simp] theorem State.reseed_seed : (s.reseed).seed = s.seed := rfl
@[simp] theorem State.reseed_buflen : (s.reseed).buflen = s.buflen := rfl
@[simp] theorem State.reseed_pn : (s.reseed).pn = s.pn := rfl
@[simp] theorem State.reseed_x : (s.reseed).x = s.seed := rfl
@[simp] theorem State.reseed_cap : (s.reseed).cap = s.cap := rfl
@[simp] theorem State.reseed_src : (s.reseed).src = s.src := rfl
@[simp] theorem State.reseed_dst : (s.reseed).dst = s.dst := rfl
@[simp] theorem State.reseed_perm : (s.reseed).perm = s.perm := rfl
@[simp] theorem State.reseed_inv : (s.reseed).inv = s.inv := rfl
@[simp] theorem State.reseed_events : (s.reseed).events = s.events := rfl
@[simp] theorem State.reseed_replies : (s.reseed).replies = s.replies := rfl
@[simp] theorem State.reseed_resets : (s.reseed).resets = s.resets := rfl
@[simp] theorem State.reseed_unread : (s.reseed).unread = s.unread := rfl

/-! ### draw -/

@[simp] theorem State.draw_cmd : (s.draw).cmd = s.cmd := rfl
@[simp] theorem State.draw_status : (s.draw).status = s.status := rfl
@[simp] theorem State.draw_seed : (s.draw).seed = s.seed := rfl
@[simp] theorem State.draw_buflen : (s.draw).buflen = s.buflen := rfl
@[simp] theorem State.draw_pn : (s.draw).pn = s.pn := rfl
@[simp] theorem State.draw_x : (s.draw).x = xs32 s.x := rfl
@[simp] theorem State.draw_cap : (s.draw).cap = s.cap := rfl
@[simp] theorem State.draw_src : (s.draw).src = s.src := rfl
@[simp] theorem State.draw_dst : (s.draw).dst = s.dst := rfl
@[simp] theorem State.draw_perm : (s.draw).perm = s.perm := rfl
@[simp] theorem State.draw_inv : (s.draw).inv = s.inv := rfl
@[simp] theorem State.draw_events : (s.draw).events = s.events := rfl
@[simp] theorem State.draw_replies : (s.draw).replies = s.replies := rfl
@[simp] theorem State.draw_resets : (s.draw).resets = s.resets := rfl
@[simp] theorem State.draw_unread : (s.draw).unread = s.unread := rfl

/-! ### reject -/

@[simp] theorem State.reject_cmd (e : ErrorCause) : (s.reject e).cmd = s.cmd := rfl
@[simp] theorem State.reject_status (e : ErrorCause) : (s.reject e).status = statusRejected e := rfl
@[simp] theorem State.reject_seed (e : ErrorCause) : (s.reject e).seed = s.seed := rfl
@[simp] theorem State.reject_buflen (e : ErrorCause) : (s.reject e).buflen = s.buflen := rfl
@[simp] theorem State.reject_pn (e : ErrorCause) : (s.reject e).pn = s.pn := rfl
@[simp] theorem State.reject_x (e : ErrorCause) : (s.reject e).x = s.x := rfl
@[simp] theorem State.reject_cap (e : ErrorCause) : (s.reject e).cap = s.cap := rfl
@[simp] theorem State.reject_src (e : ErrorCause) : (s.reject e).src = s.src := rfl
@[simp] theorem State.reject_dst (e : ErrorCause) : (s.reject e).dst = s.dst := rfl
@[simp] theorem State.reject_perm (e : ErrorCause) : (s.reject e).perm = s.perm := rfl
@[simp] theorem State.reject_inv (e : ErrorCause) : (s.reject e).inv = s.inv := rfl
@[simp] theorem State.reject_events (e : ErrorCause) : (s.reject e).events = s.events := rfl
@[simp] theorem State.reject_replies (e : ErrorCause) : (s.reject e).replies = s.replies := rfl
@[simp] theorem State.reject_resets (e : ErrorCause) : (s.reject e).resets = s.resets := rfl
@[simp] theorem State.reject_unread (e : ErrorCause) : (s.reject e).unread = s.unread := rfl

/-! ### accept -/

@[simp] theorem State.accept_cmd : (s.accept).cmd = s.cmd := rfl
@[simp] theorem State.accept_status : (s.accept).status = statusBusy := rfl
@[simp] theorem State.accept_seed : (s.accept).seed = s.seed := rfl
@[simp] theorem State.accept_buflen : (s.accept).buflen = s.buflen := rfl
@[simp] theorem State.accept_pn : (s.accept).pn = s.pn := rfl
@[simp] theorem State.accept_x : (s.accept).x = s.x := rfl
@[simp] theorem State.accept_cap : (s.accept).cap = s.cap := rfl
@[simp] theorem State.accept_src : (s.accept).src = s.src := rfl
@[simp] theorem State.accept_dst : (s.accept).dst = s.dst := rfl
@[simp] theorem State.accept_perm : (s.accept).perm = s.perm := rfl
@[simp] theorem State.accept_inv : (s.accept).inv = s.inv := rfl
@[simp] theorem State.accept_events : (s.accept).events = s.events := rfl
@[simp] theorem State.accept_replies : (s.accept).replies = s.replies := rfl
@[simp] theorem State.accept_resets : (s.accept).resets = s.resets := rfl
@[simp] theorem State.accept_unread : (s.accept).unread = true := rfl

/-! ### complete -/

@[simp] theorem State.complete_cmd : (s.complete).cmd = s.cmd := rfl
@[simp] theorem State.complete_status : (s.complete).status = statusDone := rfl
@[simp] theorem State.complete_seed : (s.complete).seed = s.seed := rfl
@[simp] theorem State.complete_buflen : (s.complete).buflen = s.buflen := rfl
@[simp] theorem State.complete_pn : (s.complete).pn = s.pn := rfl
@[simp] theorem State.complete_x : (s.complete).x = s.x := rfl
@[simp] theorem State.complete_cap : (s.complete).cap = s.cap := rfl
@[simp] theorem State.complete_src : (s.complete).src = s.src := rfl
@[simp] theorem State.complete_dst : (s.complete).dst = s.dst := rfl
@[simp] theorem State.complete_perm : (s.complete).perm = s.perm := rfl
@[simp] theorem State.complete_inv : (s.complete).inv = s.inv := rfl
@[simp] theorem State.complete_events : (s.complete).events = s.events := rfl
@[simp] theorem State.complete_replies : (s.complete).replies = s.replies := rfl
@[simp] theorem State.complete_resets : (s.complete).resets = s.resets := rfl
@[simp] theorem State.complete_unread : (s.complete).unread = s.unread := rfl

/-! ### logReply -/

@[simp] theorem State.logReply_cmd (r : Option Reply) : (s.logReply r).cmd = s.cmd := rfl
@[simp] theorem State.logReply_status (r : Option Reply) : (s.logReply r).status = s.status := rfl
@[simp] theorem State.logReply_seed (r : Option Reply) : (s.logReply r).seed = s.seed := rfl
@[simp] theorem State.logReply_buflen (r : Option Reply) : (s.logReply r).buflen = s.buflen := rfl
@[simp] theorem State.logReply_pn (r : Option Reply) : (s.logReply r).pn = s.pn := rfl
@[simp] theorem State.logReply_x (r : Option Reply) : (s.logReply r).x = s.x := rfl
@[simp] theorem State.logReply_cap (r : Option Reply) : (s.logReply r).cap = s.cap := rfl
@[simp] theorem State.logReply_src (r : Option Reply) : (s.logReply r).src = s.src := rfl
@[simp] theorem State.logReply_dst (r : Option Reply) : (s.logReply r).dst = s.dst := rfl
@[simp] theorem State.logReply_perm (r : Option Reply) : (s.logReply r).perm = s.perm := rfl
@[simp] theorem State.logReply_inv (r : Option Reply) : (s.logReply r).inv = s.inv := rfl
@[simp] theorem State.logReply_events (r : Option Reply) : (s.logReply r).events = s.events := rfl
@[simp] theorem State.logReply_replies (r : Option Reply) : (s.logReply r).replies = s.replies ++ r.toList := rfl
@[simp] theorem State.logReply_resets (r : Option Reply) : (s.logReply r).resets = s.resets := rfl
@[simp] theorem State.logReply_unread (r : Option Reply) : (s.logReply r).unread = s.unread := rfl

/-! ### afterStatusRead -/

@[simp] theorem State.afterStatusRead_cmd : (s.afterStatusRead).cmd = s.cmd := rfl
@[simp] theorem State.afterStatusRead_status : (s.afterStatusRead).status = s.status := rfl
@[simp] theorem State.afterStatusRead_seed : (s.afterStatusRead).seed = s.seed := rfl
@[simp] theorem State.afterStatusRead_buflen : (s.afterStatusRead).buflen = s.buflen := rfl
@[simp] theorem State.afterStatusRead_pn : (s.afterStatusRead).pn = s.pn := rfl
@[simp] theorem State.afterStatusRead_x : (s.afterStatusRead).x = s.x := rfl
@[simp] theorem State.afterStatusRead_cap : (s.afterStatusRead).cap = s.cap := rfl
@[simp] theorem State.afterStatusRead_src : (s.afterStatusRead).src = s.src := rfl
@[simp] theorem State.afterStatusRead_dst : (s.afterStatusRead).dst = s.dst := rfl
@[simp] theorem State.afterStatusRead_perm : (s.afterStatusRead).perm = s.perm := rfl
@[simp] theorem State.afterStatusRead_inv : (s.afterStatusRead).inv = s.inv := rfl
@[simp] theorem State.afterStatusRead_events : (s.afterStatusRead).events = s.events := rfl
@[simp] theorem State.afterStatusRead_replies : (s.afterStatusRead).replies = s.replies := rfl
@[simp] theorem State.afterStatusRead_resets : (s.afterStatusRead).resets = s.resets := rfl
@[simp] theorem State.afterStatusRead_unread : (s.afterStatusRead).unread = (s.unread && s.busy) := rfl

end Sys2Proof.Machine
end

