-- ==== Sys2Proof/Laws/Memory.lean ====
section
/-! SUPPORT. The laws of one memory: a read after a write, the canonical form, the bounds. -/

namespace Sys2Proof.Machine

variable {α : Type}

@[simp] theorem Memory.read_nil (a : Nat) : Memory.read ([] : Memory α) a = none := rfl

theorem Memory.read_cons (b : Nat) (v : α) (m : Memory α) (a : Nat) :
    Memory.read ((b, v) :: m) a = if a = b then some v else Memory.read m a := rfl

/-- Reading after a write: the written value at the address, the old contents elsewhere. -/
@[simp] theorem Memory.read_write (m : Memory α) (a : Nat) (v : α) (k : Nat) :
    Memory.read (Memory.write m a v) k = if k = a then some v else Memory.read m k := by
  induction m with
  | nil => rfl
  | cons p m ih =>
    obtain ⟨b, u⟩ := p
    simp only [Memory.write]
    split
    · simp only [Memory.read_cons]
    · split
      · next h => subst h; simp only [Memory.read_cons]; split <;> rfl
      · next h1 h2 =>
        simp only [Memory.read_cons, ih]
        split
        · next h => subst h; rw [if_neg (fun h => h2 h.symm)]
        · rfl

/-- The addresses after a write are the old ones and the written one. -/
theorem Memory.mem_write {m : Memory α} {a : Nat} {v : α} {p : Nat × α} (h : p ∈ Memory.write m a v) :
    p = (a, v) ∨ p ∈ m := by
  induction m with
  | nil => exact .inl (by simpa [Memory.write] using h)
  | cons q m ih =>
    obtain ⟨b, u⟩ := q
    simp only [Memory.write] at h
    split at h
    · simpa using h
    · split at h
      · simp only [List.mem_cons] at h ⊢; tauto
      · simp only [List.mem_cons] at h ⊢
        rcases h with h | h
        · exact .inr (.inl h)
        · rcases ih h with h | h <;> tauto

/-- A write keeps the canonical form. -/
theorem Memory.write_wf {m : Memory α} (h : Memory.wf m) (a : Nat) (v : α) : Memory.wf (Memory.write m a v) := by
  induction m with
  | nil => simp [Memory.write, Memory.wf]
  | cons q m ih =>
    obtain ⟨b, u⟩ := q
    have hm := List.pairwise_cons.1 h
    simp only [Memory.write]
    split
    · next hab =>
      refine List.pairwise_cons.2 ⟨fun p hp => ?_, h⟩
      rcases List.mem_cons.1 hp with rfl | hp
      · exact hab
      · exact Nat.lt_trans hab (hm.1 p hp)
    · split
      · next hab => subst hab; exact List.pairwise_cons.2 ⟨hm.1, hm.2⟩
      · next h1 h2 =>
        refine List.pairwise_cons.2 ⟨fun p hp => ?_, ih hm.2⟩
        rcases Memory.mem_write hp with rfl | hp
        · show b < a; omega
        · exact hm.1 p hp

/-- A write below the size keeps every listed address below the size. -/
theorem Memory.write_within {m : Memory α} {n a : Nat} (h : Memory.within m n) (ha : a < n) (v : α) :
    Memory.within (Memory.write m a v) n := by
  intro p hp
  rcases Memory.mem_write hp with rfl | hp
  · exact ha
  · exact h p hp

/-- Two memories in canonical form that read alike are equal. -/
theorem Memory.ext_of_read {m m' : Memory α} (h : Memory.wf m) (h' : Memory.wf m')
    (hr : ∀ a, Memory.read m a = Memory.read m' a) : m = m' := by
  have none_below : ∀ {l : Memory α} {b : Nat}, (∀ p ∈ l, b < p.1) → Memory.read l b = none := by
    intro l b hl
    induction l with
    | nil => rfl
    | cons q l ih =>
      obtain ⟨c, u⟩ := q
      have : b < c := hl (c, u) (by simp)
      rw [Memory.read_cons, if_neg (by omega), ih (fun p hp => hl p (by simp [hp]))]
  induction m generalizing m' with
  | nil =>
    cases m' with
    | nil => rfl
    | cons q m' =>
      obtain ⟨c, u⟩ := q
      have := hr c
      simp [Memory.read_cons] at this
  | cons q m ih =>
    obtain ⟨b, v⟩ := q
    have hm := List.pairwise_cons.1 h
    cases m' with
    | nil =>
      have := hr b
      simp [Memory.read_cons] at this
    | cons q' m' =>
      obtain ⟨c, u⟩ := q'
      have hm' := List.pairwise_cons.1 h'
      have hbc : b = c := by
        rcases Nat.lt_trichotomy b c with hlt | heq | hlt
        · have h1 := hr b
          rw [none_below (l := (c, u) :: m') (b := b)] at h1
          · simp [Memory.read_cons] at h1
          · intro p hp
            rcases List.mem_cons.1 hp with rfl | hp
            · exact hlt
            · exact Nat.lt_trans hlt (hm'.1 p hp)
        · exact heq
        · have h1 := hr c
          rw [none_below (l := (b, v) :: m) (b := c)] at h1
          · simp [Memory.read_cons] at h1
          · intro p hp
            rcases List.mem_cons.1 hp with rfl | hp
            · exact hlt
            · exact Nat.lt_trans hlt (hm.1 p hp)
      subst hbc
      have hv : v = u := by simpa [Memory.read_cons] using hr b
      subst hv
      congr 1
      refine ih hm.2 hm'.2 (fun a => ?_)
      by_cases hab : a = b
      · subst hab
        rw [none_below (fun p hp => hm.1 p hp), none_below (fun p hp => hm'.1 p hp)]
      · simpa [Memory.read_cons, hab] using hr a

end Sys2Proof.Machine
end

