-- ==== Sys2Proof/Laws/Ops.lean ====
section
/-! SUPPORT. One specification lemma per shared procedure: what it changes, and what each location it writes then holds. -/

namespace Sys2Proof.Machine

/-! ### `STATUS` words as numbers (R12, R131) -/

theorem statusIdle_eq : statusIdle = 0x00000000#32 := by decide
theorem statusBusy_eq : statusBusy = 0x00000001#32 := by decide
theorem statusDone_eq : statusDone = 0x00000002#32 := by decide
theorem statusRejected_eOp : statusRejected .eOp = 0x00000104#32 := by decide
theorem statusRejected_eLen4 : statusRejected .eLen4 = 0x00000204#32 := by decide
theorem statusRejected_eCap : statusRejected .eCap = 0x00000304#32 := by decide
theorem statusRejected_ePerm : statusRejected .ePerm = 0x00000404#32 := by decide

/-! ### The life of a command -/

theorem runCommand_reject {c : Option ErrorCause} {e : ErrorCause} (h : c = some e) (p : State → State) (s : State) :
    runCommand c p s = .next (s.reject e) := by
  subst h; rfl

theorem runCommand_accept {c : Option ErrorCause} (h : c = none) (p : State → State) (s : State) :
    runCommand c p s = .next (p s.accept).complete := by
  subst h; rfl

/-- A command always answers a next state: rejected with the cause its check gave, or completed. -/
theorem runCommand_cases (c : Option ErrorCause) (p : State → State) (s : State) :
    (∃ e, c = some e ∧ runCommand c p s = .next (s.reject e)) ∨
      (c = none ∧ runCommand c p s = .next (p s.accept).complete) := by
  cases c with
  | some e => exact .inl ⟨e, rfl, rfl⟩
  | none => exact .inr ⟨rfl, rfl⟩

theorem checkTransform_none_iff (s : State) : checkTransform s = none ↔ s.transformReady := by
  unfold checkTransform State.transformReady
  split
  · simp_all
  · split
    · simp_all
    · simp_all

theorem checkLength_none_iff (s : State) : checkLength s = none ↔ s.pn.toNat ≤ s.maxPix := by
  unfold checkLength
  split
  · simp_all
  · simp_all

theorem permOutOfRange_false_iff (n : Nat) (s : State) :
    permOutOfRange n s = false ↔ ∀ i < n, (s.readPerm i).toNat < n := by
  simp [permOutOfRange]

theorem checkPinv_none_iff (s : State) :
    checkPinv s = none ↔ s.pn.toNat ≤ s.maxPix ∧ ∀ i < s.pn.toNat, (s.readPerm i).toNat < s.pn.toNat := by
  unfold checkPinv
  split
  · next h => simp; intro h'; omega
  · split
    · next h1 h2 =>
      have : ¬ permOutOfRange s.pn.toNat s = false := by simp [h2]
      rw [permOutOfRange_false_iff] at this
      simp_all
    · next h1 h2 =>
      have : permOutOfRange s.pn.toNat s = false := by simpa using h2
      rw [permOutOfRange_false_iff] at this
      simp only [true_iff]
      exact ⟨by omega, this⟩

/-! ### Frames compose -/

theorem frame_dst_trans {s t u : State} (h1 : t = { s with dst := t.dst }) (h2 : u = { t with dst := u.dst }) :
    u = { s with dst := u.dst } := h2.trans (congrArg (fun z : State => { z with dst := u.dst }) h1)

theorem frame_perm_trans {s t u : State} (h1 : t = { s with perm := t.perm }) (h2 : u = { t with perm := u.perm }) :
    u = { s with perm := u.perm } := h2.trans (congrArg (fun z : State => { z with perm := u.perm }) h1)

theorem frame_inv_trans {s t u : State} (h1 : t = { s with inv := t.inv }) (h2 : u = { t with inv := u.inv }) :
    u = { s with inv := u.inv } := h2.trans (congrArg (fun z : State => { z with inv := u.inv }) h1)

theorem frame_x_perm_trans {s t u : State} {y z : Word} (h1 : t = { s with x := y, perm := t.perm })
    (h2 : u = { t with x := z, perm := u.perm }) : u = { s with x := z, perm := u.perm } :=
  h2.trans (congrArg (fun w : State => { w with x := z, perm := u.perm }) h1)

/-! ### Byte pass -/

/-- The output byte of the byte pass at offset `a` (R90). -/
def byteOut (f : Byte → Byte) (alpha : Bool) (s : State) (a : Nat) : Byte :=
  if a % 4 = 3 ∧ alpha = false then s.readSrc a else f (s.readSrc a)

@[simp] theorem readSrc_writeDst (s : State) (a : Nat) (b : Byte) (k : Nat) : (s.writeDst a b).readSrc k = s.readSrc k := rfl
@[simp] theorem readPerm_writeDst (s : State) (a : Nat) (b : Byte) (k : Nat) :
    (s.writeDst a b).readPerm k = s.readPerm k := rfl
@[simp] theorem readInv_writeDst (s : State) (a : Nat) (b : Byte) (k : Nat) : (s.writeDst a b).readInv k = s.readInv k := rfl
@[simp] theorem readPerm_writeInv (s : State) (i : Nat) (w : Word) (k : Nat) :
    (s.writeInv i w).readPerm k = s.readPerm k := rfl
@[simp] theorem readSrc_accept (s : State) (k : Nat) : s.accept.readSrc k = s.readSrc k := rfl
@[simp] theorem readPerm_accept (s : State) (k : Nat) : s.accept.readPerm k = s.readPerm k := rfl
@[simp] theorem readInv_accept (s : State) (k : Nat) : s.accept.readInv k = s.readInv k := rfl

theorem bytePixel_frame (f : Byte → Byte) (alpha : Bool) (p : Nat) (s : State) :
    bytePixel f alpha p s = { s with dst := (bytePixel f alpha p s).dst } := by
  unfold bytePixel; split <;> rfl

theorem bytePixel_read (f : Byte → Byte) (alpha : Bool) (p : Nat) (s : State) (a : Nat) :
    Memory.read (bytePixel f alpha p s).dst a =
      if a / 4 = p then some (byteOut f alpha s a) else Memory.read s.dst a := by
  have key : a / 4 = p ↔ a = 4 * p + 3 ∨ a = 4 * p + 2 ∨ a = 4 * p + 1 ∨ a = 4 * p + 0 := by omega
  by_cases ha : a / 4 = p
  · rw [if_pos ha]
    have h3 : a % 4 = 3 ↔ a = 4 * p + 3 := by omega
    unfold bytePixel byteOut
    cases alpha <;> rcases key.1 ha with h | h | h | h <;> subst h <;> simp
  · rw [if_neg ha]
    have h : a ≠ 4 * p ∧ a ≠ 4 * p + 1 ∧ a ≠ 4 * p + 2 ∧ a ≠ 4 * p + 3 := by omega
    unfold bytePixel
    cases alpha <;> simp [h]

theorem bytePass_frame (f : Byte → Byte) (alpha : Bool) (n : Nat) (s : State) :
    bytePass f alpha n s = { s with dst := (bytePass f alpha n s).dst } := by
  induction n with
  | zero => rfl
  | succ n ih =>
    exact frame_dst_trans ih (bytePixel_frame f alpha n (bytePass f alpha n s))

/-- The byte pass (R90, R38): every byte of the first `n` pixels is written with its output, every other keeps its
contents. -/
theorem bytePass_read (f : Byte → Byte) (alpha : Bool) (n : Nat) (s : State) (a : Nat) :
    Memory.read (bytePass f alpha n s).dst a =
      if a < 4 * n then some (byteOut f alpha s a) else Memory.read s.dst a := by
  induction n with
  | zero => simp [bytePass]
  | succ n ih =>
    show Memory.read (bytePixel f alpha n (bytePass f alpha n s)).dst a = _
    rw [bytePixel_read, ih]
    have hsame : byteOut f alpha (bytePass f alpha n s) a = byteOut f alpha s a := by
      rw [bytePass_frame]; rfl
    rw [hsame]
    by_cases h1 : a / 4 = n
    · rw [if_pos h1, if_pos (by omega)]
    · rw [if_neg h1]
      by_cases h2 : a < 4 * n
      · rw [if_pos h2, if_pos (by omega)]
      · rw [if_neg h2, if_neg (by omega)]

/-! ### The generator -/

theorem afterDraws_zero (seed : Word) : afterDraws 0 seed = seed := rfl

theorem afterDraws_succ (k : Nat) (seed : Word) : afterDraws (k + 1) seed = afterDraws k (xs32 seed) := rfl

/-! ### Building a permutation -/

theorem identityPass_frame (n : Nat) (s : State) : identityPass n s = { s with perm := (identityPass n s).perm } := by
  induction n with
  | zero => rfl
  | succ n ih =>
    exact frame_perm_trans ih (u := (identityPass n s).writePerm n (BitVec.ofNat 32 n)) rfl

theorem identityPass_read (n : Nat) (s : State) (i : Nat) :
    Memory.read (identityPass n s).perm i = if i < n then some (BitVec.ofNat 32 i) else Memory.read s.perm i := by
  induction n with
  | zero => simp [identityPass]
  | succ n ih =>
    show Memory.read ((identityPass n s).writePerm n (BitVec.ofNat 32 n)).perm i = _
    rw [State.writePerm_perm, Memory.read_write, ih]
    by_cases h1 : i = n
    · subst h1; rw [if_pos rfl, if_pos (by omega)]
    · rw [if_neg h1]
      by_cases h2 : i < n
      · rw [if_pos h2, if_pos (by omega)]
      · rw [if_neg h2, if_neg (by omega)]

theorem swapPerm_frame (s : State) (i r : Nat) : s.swapPerm i r = { s with perm := (s.swapPerm i r).perm } := by
  unfold State.swapPerm; split <;> rfl

theorem swapPerm_read (s : State) (i r k : Nat) (hi : (Memory.read s.perm i).isSome) (hr : (Memory.read s.perm r).isSome) :
    Memory.read (s.swapPerm i r).perm k =
      if k = i then Memory.read s.perm r else if k = r then Memory.read s.perm i else Memory.read s.perm k := by
  obtain ⟨u, hu⟩ := Option.isSome_iff_exists.1 hi
  obtain ⟨v, hv⟩ := Option.isSome_iff_exists.1 hr
  unfold State.swapPerm
  split
  · next h => subst h; split <;> simp_all
  · next h =>
    simp only [State.writePerm_perm, Memory.read_write, State.readPerm, hu, hv, Option.getD_some]
    by_cases h1 : k = r
    · subst h1; rw [if_pos rfl, if_neg (fun e => h e.symm), if_pos rfl]
    · rw [if_neg h1, if_neg h1]

theorem fisherYatesStep_frame (i : Nat) (s : State) :
    fisherYatesStep i s = { s with x := xs32 s.x, perm := (fisherYatesStep i s).perm } := by
  unfold fisherYatesStep
  rw [swapPerm_frame]
  rfl

/-- The loop changes only `X` (one draw per iteration, R82) and `PERM`. -/
theorem fisherYates_frame (k : Nat) (s : State) :
    fisherYates k s = { s with x := afterDraws k s.x, perm := (fisherYates k s).perm } := by
  induction k generalizing s with
  | zero => rfl
  | succ k ih =>
    have hx : (fisherYatesStep (k + 1) s).x = xs32 s.x := by rw [fisherYatesStep_frame]
    have h := ih (fisherYatesStep (k + 1) s)
    rw [hx] at h
    exact frame_x_perm_trans (fisherYatesStep_frame (k + 1) s) h

/-- The loop computes the reference loop on the first `n` entries and leaves every other entry. -/
theorem fisherYates_read {n k : Nat} (hk : k < n) {s : State} {p : Nat → Nat}
    (hp : ∀ j < n, Memory.read s.perm j = some (BitVec.ofNat 32 (p j))) (j : Nat) :
    Memory.read (fisherYates k s).perm j =
      if j < n then some (BitVec.ofNat 32 (fisherYatesFrom k s.x p j)) else Memory.read s.perm j := by
  induction k generalizing s p with
  | zero =>
    by_cases h : j < n
    · simp [fisherYates, fisherYatesFrom, h, hp j h]
    · simp [fisherYates, h]
  | succ k ih =>
    show Memory.read (fisherYates k (fisherYatesStep (k + 1) s)).perm j = _
    have hr : (xs32 s.x).toNat % (k + 1 + 1) < n := Nat.lt_of_lt_of_le (Nat.mod_lt _ (by omega)) (by omega)
    have hstep : ∀ m, Memory.read (fisherYatesStep (k + 1) s).perm m =
        if m < n then some (BitVec.ofNat 32 (swapPlaces p (k + 1) ((xs32 s.x).toNat % (k + 1 + 1)) m))
        else Memory.read s.perm m := by
      intro m
      show Memory.read (s.draw.swapPerm (k + 1) ((xs32 s.x).toNat % (k + 1 + 1))).perm m = _
      rw [swapPerm_read]
      · simp only [State.draw_perm, swapPlaces]
        rw [hp _ hk, hp _ hr]
        by_cases hm : m < n
        · rw [if_pos hm, hp m hm]
          by_cases h1 : m = k + 1
          · simp only [if_pos h1]
          · by_cases h2 : m = (xs32 s.x).toNat % (k + 1 + 1)
            · simp only [if_neg h1, if_pos h2]
            · simp only [if_neg h1, if_neg h2]
        · rw [if_neg hm, if_neg (by omega), if_neg (by omega)]
      · simp [hp _ hk]
      · simp [hp _ hr]
    rw [ih (by omega) (s := fisherYatesStep (k + 1) s)
      (p := swapPlaces p (k + 1) ((xs32 s.x).toNat % (k + 1 + 1)))
      (fun m hm => by rw [hstep m, if_pos hm])]
    rw [hstep j]
    have hx : (fisherYatesStep (k + 1) s).x = xs32 s.x := by rw [fisherYatesStep_frame]
    rw [hx]
    split <;> rfl

/-- `build(n)` changes only `X`, to `max(n - 1, 0)` draws from `SEED` (R82), and `PERM`. -/
theorem build_frame (n : Nat) (s : State) :
    build n s = { s with x := afterDraws (n - 1) s.seed, perm := (build n s).perm } := by
  have hx : (identityPass n s.reseed).x = s.seed := by rw [identityPass_frame]; rfl
  have h0 : identityPass n s.reseed = { s with x := s.seed, perm := (identityPass n s.reseed).perm } :=
    (identityPass_frame n s.reseed).trans rfl
  have h := fisherYates_frame (n - 1) (identityPass n s.reseed)
  rw [hx] at h
  exact frame_x_perm_trans h0 h

/-- `build(n)` leaves SCT2's permutation in the first `n` entries and every other entry as it was (R80). -/
theorem build_read (n : Nat) (s : State) (i : Nat) :
    Memory.read (build n s).perm i =
      if i < n then some (BitVec.ofNat 32 (permutationOf n s.seed i)) else Memory.read s.perm i := by
  unfold build
  have hx : (identityPass n s.reseed).x = s.seed := by rw [identityPass_frame]; rfl
  rcases Nat.eq_zero_or_pos n with h0 | hpos
  · subst h0; rfl
  · rw [fisherYates_read (n := n) (p := id) (by omega)
      (fun j hj => by rw [identityPass_read, if_pos hj]; rfl), hx, identityPass_read]
    unfold permutationOf
    split <;> rfl

/-! ### The reference permutation is a bijection (R87) -/

theorem swapPlaces_eq (p : Nat → Nat) (i r : Nat) : swapPlaces p i r = p ∘ Equiv.swap i r := by
  funext j
  simp only [swapPlaces, Function.comp, Equiv.swap_apply_def]
  split
  · rfl
  · split <;> rfl

theorem swapPlaces_bijOn {n i r : Nat} (hi : i < n) (hr : r < n) {p : Nat → Nat}
    (hp : Set.BijOn p (Set.Iio n) (Set.Iio n)) : Set.BijOn (swapPlaces p i r) (Set.Iio n) (Set.Iio n) := by
  rw [swapPlaces_eq]
  refine hp.comp ⟨fun j hj => ?_, (Equiv.swap i r).injective.injOn, fun j hj => ⟨Equiv.swap i r j, ?_, ?_⟩⟩
  · simp only [Set.mem_Iio, Equiv.swap_apply_def] at *
    split <;> [exact hr; (split <;> [exact hi; exact hj])]
  · simp only [Set.mem_Iio, Equiv.swap_apply_def] at *
    split <;> [exact hr; (split <;> [exact hi; exact hj])]
  · exact Equiv.swap_apply_self i r j

theorem fisherYatesFrom_bijOn {n k : Nat} (hk : k < n) (x : Word) {p : Nat → Nat}
    (hp : Set.BijOn p (Set.Iio n) (Set.Iio n)) : Set.BijOn (fisherYatesFrom k x p) (Set.Iio n) (Set.Iio n) := by
  induction k generalizing x p with
  | zero => exact hp
  | succ k ih =>
    refine ih (by omega) _ (swapPlaces_bijOn hk ?_ hp)
    exact Nat.lt_of_lt_of_le (Nat.mod_lt _ (by omega)) (by omega)

/-- SCT2's permutation is a bijection over `[0, n)` (R87). -/
theorem permutationOf_bijOn (n : Nat) (seed : Word) : Set.BijOn (permutationOf n seed) (Set.Iio n) (Set.Iio n) := by
  rcases Nat.eq_zero_or_pos n with h0 | hpos
  · subst h0
    refine ⟨fun j hj => ?_, fun j hj => ?_, fun j hj => ?_⟩ <;> exact absurd hj (Nat.not_lt_zero j)
  · exact fisherYatesFrom_bijOn (by omega) _ (Set.bijOn_id _)

theorem permutationOf_lt {n : Nat} {seed : Word} {i : Nat} (hi : i < n) : permutationOf n seed i < n :=
  (permutationOf_bijOn n seed).mapsTo hi

theorem permutationOf_inj {n : Nat} {seed : Word} {i j : Nat} (hi : i < n) (hj : j < n)
    (h : permutationOf n seed i = permutationOf n seed j) : i = j := (permutationOf_bijOn n seed).injOn hi hj h

theorem permutationOf_surj {n : Nat} {seed : Word} {j : Nat} (hj : j < n) : ∃ i < n, permutationOf n seed i = j := by
  obtain ⟨i, hi, h⟩ := (permutationOf_bijOn n seed).surjOn hj
  exact ⟨i, hi, h⟩

/-- What `PERM` reads as after `build(n)`, as numbers. -/
theorem build_readPerm {n : Nat} (hn : n ≤ 2 ^ 32) (s : State) {i : Nat} (hi : i < n) :
    ((build n s).readPerm i).toNat = permutationOf n s.seed i := by
  have h : permutationOf n s.seed i < n := permutationOf_lt hi
  rw [State.readPerm, build_read, if_pos hi, Option.getD_some, BitVec.toNat_ofNat, Nat.mod_eq_of_lt (by omega)]

/-! ### Inverting -/

theorem invert_frame (n : Nat) (s : State) : invert n s = { s with inv := (invert n s).inv } := by
  induction n with
  | zero => rfl
  | succ n ih =>
    exact frame_inv_trans ih
      (u := (invert n s).writeInv ((invert n s).readPerm n).toNat (BitVec.ofNat 32 n)) rfl

@[simp] theorem invert_readPerm (n : Nat) (s : State) (i : Nat) : (invert n s).readPerm i = s.readPerm i := by
  rw [invert_frame]; rfl

theorem invert_succ_read (n : Nat) (s : State) (t : Nat) :
    Memory.read (invert (n + 1) s).inv t =
      if t = (s.readPerm n).toNat then some (BitVec.ofNat 32 n) else Memory.read (invert n s).inv t := by
  show Memory.read ((invert n s).writeInv ((invert n s).readPerm n).toNat (BitVec.ofNat 32 n)).inv t = _
  rw [State.writeInv_inv, Memory.read_write, invert_readPerm]

/-- An index no entry names keeps its old `INV` (R86). -/
theorem invert_read_miss {n : Nat} {s : State} {t : Nat} (h : ∀ i < n, (s.readPerm i).toNat ≠ t) :
    Memory.read (invert n s).inv t = Memory.read s.inv t := by
  induction n with
  | zero => rfl
  | succ n ih =>
    rw [invert_succ_read, if_neg (fun e => h n (by omega) e.symm), ih (fun i hi => h i (by omega))]

/-- An index that entries name ends as the largest of them (R86). -/
theorem invert_read_hit {n : Nat} {s : State} {t i : Nat} (hi : i < n) (ht : (s.readPerm i).toNat = t)
    (hlast : ∀ j, i < j → j < n → (s.readPerm j).toNat ≠ t) :
    Memory.read (invert n s).inv t = some (BitVec.ofNat 32 i) := by
  induction n with
  | zero => omega
  | succ n ih =>
    rw [invert_succ_read]
    by_cases h : i = n
    · subst h; rw [if_pos ht.symm]
    · rw [if_neg (fun e => hlast n (by omega) (by omega) e.symm)]
      exact ih (by omega) (fun j h1 h2 => hlast j h1 (by omega))

/-- Every written index of `INV` is one the entries name. -/
theorem invert_within {n : Nat} {s : State} {size : Nat} (h : ∀ i < n, (s.readPerm i).toNat < size)
    (hw : Memory.within s.inv size) : Memory.within (invert n s).inv size := by
  induction n with
  | zero => exact hw
  | succ n ih =>
    show Memory.within ((invert n s).writeInv ((invert n s).readPerm n).toNat (BitVec.ofNat 32 n)).inv size
    rw [State.writeInv_inv, invert_readPerm]
    exact Memory.write_within (ih (fun i hi => h i (by omega))) (h n (by omega)) _

/-! ### Gather -/

theorem copyPixel_frame (d m : Nat) (s : State) : copyPixel d m s = { s with dst := (copyPixel d m s).dst } := rfl

theorem copyPixel_read (d m : Nat) (s : State) (a : Nat) :
    Memory.read (copyPixel d m s).dst a =
      if a / 4 = d then some (s.readSrc (4 * m + a % 4)) else Memory.read s.dst a := by
  have key : a / 4 = d ↔ a = 4 * d + 3 ∨ a = 4 * d + 2 ∨ a = 4 * d + 1 ∨ a = 4 * d + 0 := by omega
  by_cases ha : a / 4 = d
  · rw [if_pos ha]
    unfold copyPixel
    rcases key.1 ha with h | h | h | h <;> subst h <;> simp [Nat.add_mod]
  · rw [if_neg ha]
    have h : a ≠ 4 * d ∧ a ≠ 4 * d + 1 ∧ a ≠ 4 * d + 2 ∧ a ≠ 4 * d + 3 := by omega
    unfold copyPixel
    simp [h]

theorem gatherPerm_frame (n : Nat) (s : State) : gatherPerm n s = { s with dst := (gatherPerm n s).dst } := by
  induction n with
  | zero => rfl
  | succ n ih =>
    exact frame_dst_trans ih (copyPixel_frame n ((gatherPerm n s).readPerm n).toNat (gatherPerm n s))

theorem gatherInv_frame (n : Nat) (s : State) : gatherInv n s = { s with dst := (gatherInv n s).dst } := by
  induction n with
  | zero => rfl
  | succ n ih =>
    exact frame_dst_trans ih (copyPixel_frame n ((gatherInv n s).readInv n).toNat (gatherInv n s))

/-- The gather (R100): output pixel `d` is input pixel `PERM[d]`, whole; nothing else changes. -/
theorem gatherPerm_read (n : Nat) (s : State) (a : Nat) :
    Memory.read (gatherPerm n s).dst a =
      if a < 4 * n then some (s.readSrc (4 * (s.readPerm (a / 4)).toNat + a % 4)) else Memory.read s.dst a := by
  induction n with
  | zero => simp [gatherPerm]
  | succ n ih =>
    show Memory.read (copyPixel n ((gatherPerm n s).readPerm n).toNat (gatherPerm n s)).dst a = _
    rw [copyPixel_read, ih]
    have h1 : ∀ k, (gatherPerm n s).readSrc k = s.readSrc k := fun k => by rw [gatherPerm_frame]; rfl
    have h2 : ∀ k, (gatherPerm n s).readPerm k = s.readPerm k := fun k => by rw [gatherPerm_frame]; rfl
    rw [h1, h2]
    by_cases h : a / 4 = n
    · rw [if_pos h, if_pos (by omega), h]
    · rw [if_neg h]
      by_cases h3 : a < 4 * n
      · rw [if_pos h3, if_pos (by omega)]
      · rw [if_neg h3, if_neg (by omega)]

/-- The gather through `INV` (R100). -/
theorem gatherInv_read (n : Nat) (s : State) (a : Nat) :
    Memory.read (gatherInv n s).dst a =
      if a < 4 * n then some (s.readSrc (4 * (s.readInv (a / 4)).toNat + a % 4)) else Memory.read s.dst a := by
  induction n with
  | zero => simp [gatherInv]
  | succ n ih =>
    show Memory.read (copyPixel n ((gatherInv n s).readInv n).toNat (gatherInv n s)).dst a = _
    rw [copyPixel_read, ih]
    have h1 : ∀ k, (gatherInv n s).readSrc k = s.readSrc k := fun k => by rw [gatherInv_frame]; rfl
    have h2 : ∀ k, (gatherInv n s).readInv k = s.readInv k := fun k => by rw [gatherInv_frame]; rfl
    rw [h1, h2]
    by_cases h : a / 4 = n
    · rw [if_pos h, if_pos (by omega), h]
    · rw [if_neg h]
      by_cases h3 : a < 4 * n
      · rw [if_pos h3, if_pos (by omega)]
      · rw [if_neg h3, if_neg (by omega)]

end Sys2Proof.Machine
end

