-- ==== Sys2Proof/Laws/Exec.lean ====
section
/-! SUPPORT. One form for all nine commands: the check at issue, then the procedure; and what that form gives every command. -/

namespace Sys2Proof.Machine

/-- The procedure of an accepted command, its operands read at issue. -/
def procedure : Instr → State → State → State
  | .xor alpha, s => bytePass (byteXor s.key8) alpha s.pixelCount
  | .addE alpha, s => bytePass (byteAdd s.key8) alpha s.pixelCount
  | .addD alpha, s => bytePass (byteSub s.key8) alpha s.pixelCount
  | .shufE, s => shuffleEncrypt s.pixelCount
  | .shufD, s => shuffleDecrypt s.pixelCount
  | .ginit, _ => State.reseed
  | .gnext, _ => State.draw
  | .pbuild, s => build s.pn.toNat
  | .pinv, s => invert s.pn.toNat

/-- Every command is `runCommand` of its check and its procedure. -/
theorem exec_eq (i : Instr) (s : State) : exec i s = runCommand (check i s) (procedure i s) s := by
  cases i <;> rfl

theorem exec_of_rejected {i : Instr} {s : State} {e : ErrorCause} (h : check i s = some e) : exec i s = .next (s.reject e) := by
  rw [exec_eq, runCommand_reject h]

theorem exec_of_accepted {i : Instr} {s : State} (h : check i s = none) :
    exec i s = .next (procedure i s s.accept).complete := by
  rw [exec_eq, runCommand_accept h]

/-- A command is rejected or completes; it has no other end. -/
theorem exec_cases (i : Instr) (s : State) :
    (∃ e, check i s = some e ∧ exec i s = .next (s.reject e)) ∨
      (check i s = none ∧ exec i s = .next (procedure i s s.accept).complete) := by
  rw [exec_eq]; exact runCommand_cases _ _ _

/-- The checks read `BUFLEN`, `PN`, `CAP`, `PERM` and nothing else. -/
theorem check_congr (i : Instr) {s t : State} (h1 : t.buflen = s.buflen) (h2 : t.pn = s.pn) (h3 : t.cap = s.cap)
    (h4 : t.perm = s.perm) (h5 : t.resets = s.resets) : check i t = check i s := by
  cases s; cases t
  simp only at h1 h2 h3 h4 h5
  subst h1 h2 h3 h4 h5
  cases i <;> rfl

/-! ### A command neither reads nor changes the outside world's fields -/

/-- A state with other pending events and other recorded replies. -/
def State.withWorld (s : State) (events : List Event) (replies : List Reply) : State :=
  { s with events := events, replies := replies }

section World
variable (ev : List Event) (rp : List Reply)

theorem bytePixel_withWorld (f : Byte → Byte) (alpha : Bool) (p : Nat) (s : State) :
    bytePixel f alpha p (s.withWorld ev rp) = (bytePixel f alpha p s).withWorld ev rp := by
  cases alpha <;> rfl

theorem bytePass_withWorld (f : Byte → Byte) (alpha : Bool) (n : Nat) (s : State) :
    bytePass f alpha n (s.withWorld ev rp) = (bytePass f alpha n s).withWorld ev rp := by
  induction n with
  | zero => rfl
  | succ n ih =>
    show bytePixel f alpha n (bytePass f alpha n (s.withWorld ev rp)) = _
    rw [ih, bytePixel_withWorld]; rfl

theorem identityPass_withWorld (n : Nat) (s : State) :
    identityPass n (s.withWorld ev rp) = (identityPass n s).withWorld ev rp := by
  induction n with
  | zero => rfl
  | succ n ih =>
    show (identityPass n (s.withWorld ev rp)).writePerm n _ = _
    rw [ih]; rfl

theorem fisherYatesStep_withWorld (i : Nat) (s : State) :
    fisherYatesStep i (s.withWorld ev rp) = (fisherYatesStep i s).withWorld ev rp := by
  show (s.draw.withWorld ev rp).swapPerm i (s.draw.x.toNat % (i + 1)) =
    (s.draw.swapPerm i (s.draw.x.toNat % (i + 1))).withWorld ev rp
  unfold State.swapPerm
  split <;> rfl

theorem fisherYates_withWorld (k : Nat) (s : State) :
    fisherYates k (s.withWorld ev rp) = (fisherYates k s).withWorld ev rp := by
  induction k generalizing s with
  | zero => rfl
  | succ k ih =>
    show fisherYates k (fisherYatesStep (k + 1) (s.withWorld ev rp)) = _
    rw [fisherYatesStep_withWorld, ih]; rfl

theorem build_withWorld (n : Nat) (s : State) : build n (s.withWorld ev rp) = (build n s).withWorld ev rp := by
  show fisherYates (n - 1) (identityPass n (s.reseed.withWorld ev rp)) = _
  rw [identityPass_withWorld, fisherYates_withWorld]; rfl

theorem invert_withWorld (n : Nat) (s : State) : invert n (s.withWorld ev rp) = (invert n s).withWorld ev rp := by
  induction n with
  | zero => rfl
  | succ n ih =>
    show (invert n (s.withWorld ev rp)).writeInv ((invert n (s.withWorld ev rp)).readPerm n).toNat _ = _
    rw [ih]; rfl

theorem gatherPerm_withWorld (n : Nat) (s : State) :
    gatherPerm n (s.withWorld ev rp) = (gatherPerm n s).withWorld ev rp := by
  induction n with
  | zero => rfl
  | succ n ih =>
    show copyPixel n ((gatherPerm n (s.withWorld ev rp)).readPerm n).toNat (gatherPerm n (s.withWorld ev rp)) = _
    rw [ih]; rfl

theorem gatherInv_withWorld (n : Nat) (s : State) :
    gatherInv n (s.withWorld ev rp) = (gatherInv n s).withWorld ev rp := by
  induction n with
  | zero => rfl
  | succ n ih =>
    show copyPixel n ((gatherInv n (s.withWorld ev rp)).readInv n).toNat (gatherInv n (s.withWorld ev rp)) = _
    rw [ih]; rfl

theorem procedure_withWorld (i : Instr) (s t : State) :
    procedure i s (t.withWorld ev rp) = (procedure i s t).withWorld ev rp := by
  cases i with
  | xor a => exact bytePass_withWorld ev rp _ a _ t
  | addE a => exact bytePass_withWorld ev rp _ a _ t
  | addD a => exact bytePass_withWorld ev rp _ a _ t
  | shufE => simp only [procedure, shuffleEncrypt, build_withWorld, gatherPerm_withWorld]
  | shufD => simp only [procedure, shuffleDecrypt, build_withWorld, invert_withWorld, gatherInv_withWorld]
  | ginit => rfl
  | gnext => rfl
  | pbuild => exact build_withWorld ev rp _ t
  | pinv => exact invert_withWorld ev rp _ t

/-- A command on a state with other events and replies is the command, with those events and replies. -/
theorem exec_withWorld {i : Instr} {s t : State} (h : exec i s = .next t) :
    exec i (s.withWorld ev rp) = .next (t.withWorld ev rp) := by
  have hc : check i (s.withWorld ev rp) = check i s := check_congr i rfl rfl rfl rfl rfl
  have hp : procedure i (s.withWorld ev rp) = procedure i s := by cases i <;> rfl
  rcases exec_cases i s with ⟨e, h1, h2⟩ | ⟨h1, h2⟩
  · rw [h2] at h; cases h
    rw [exec_of_rejected (hc.trans h1)]; rfl
  · rw [h2] at h; cases h
    rw [exec_of_accepted (hc.trans h1), hp]
    show Host.Outcome.next (procedure i s (s.accept.withWorld ev rp)).complete = _
    rw [procedure_withWorld]; rfl

end World

/-! ### Frames of the shuffles -/

theorem shuffleEncrypt_frame (n : Nat) (s : State) :
    shuffleEncrypt n s =
      { s with x := afterDraws (n - 1) s.seed, perm := (build n s).perm, dst := (shuffleEncrypt n s).dst } := by
  have h1 := build_frame n s
  have h2 := gatherPerm_frame n (build n s)
  exact h2.trans (congrArg (fun z : State => { z with dst := (gatherPerm n (build n s)).dst }) h1)

theorem shuffleDecrypt_frame (n : Nat) (s : State) :
    shuffleDecrypt n s =
      { s with x := afterDraws (n - 1) s.seed, perm := (build n s).perm, inv := (invert n (build n s)).inv
               dst := (shuffleDecrypt n s).dst } := by
  have h1 := build_frame n s
  have h2 := invert_frame n (build n s)
  have h3 := gatherInv_frame n (invert n (build n s))
  have h12 := h2.trans (congrArg (fun z : State => { z with inv := (invert n (build n s)).inv }) h1)
  exact h3.trans (congrArg (fun z : State => { z with dst := (gatherInv n (invert n (build n s))).dst }) h12)

/-- A procedure writes `X`, `DST`, `PERM`, `INV` at most. -/
theorem procedure_frame (i : Instr) (s t : State) :
    procedure i s t = { t with x := (procedure i s t).x, dst := (procedure i s t).dst, perm := (procedure i s t).perm
                               inv := (procedure i s t).inv } := by
  cases i with
  | xor a => simp only [procedure]; rw [bytePass_frame]
  | addE a => simp only [procedure]; rw [bytePass_frame]
  | addD a => simp only [procedure]; rw [bytePass_frame]
  | shufE => simp only [procedure]; rw [shuffleEncrypt_frame]
  | shufD => simp only [procedure]; rw [shuffleDecrypt_frame]
  | ginit => rfl
  | gnext => rfl
  | pbuild => simp only [procedure]; rw [build_frame]
  | pinv => simp only [procedure]; rw [invert_frame]

/-! ### What the shuffles leave -/

/-- `SHUF.E`'s output: byte `a` is the byte of the source pixel the permutation names (R101). -/
theorem shuffleEncrypt_read {n : Nat} (hn : n ≤ 2 ^ 32) (s : State) (a : Nat) :
    Memory.read (shuffleEncrypt n s).dst a =
      if a < 4 * n then some (s.readSrc (4 * permutationOf n s.seed (a / 4) + a % 4)) else Memory.read s.dst a := by
  unfold shuffleEncrypt
  rw [gatherPerm_read]
  have h1 : ∀ k, (build n s).readSrc k = s.readSrc k := fun k => by rw [build_frame]; rfl
  have h2 : (build n s).dst = s.dst := by rw [build_frame]
  by_cases h : a < 4 * n
  · rw [if_pos h, if_pos h, h1, build_readPerm hn s (by omega)]
  · rw [if_neg h, if_neg h, h2]

/-- After `build(n); invert(n)`, `INV` holds the inverse of the permutation (R88). -/
theorem invert_build_read {n : Nat} (hn : n ≤ 2 ^ 32) (s : State) {j : Nat} (hj : j < n) :
    Memory.read (invert n (build n s)).inv (permutationOf n s.seed j) = some (BitVec.ofNat 32 j) := by
  refine invert_read_hit hj (build_readPerm hn s hj) (fun k h1 h2 he => ?_)
  rw [build_readPerm hn s h2] at he
  have := permutationOf_inj h2 hj he
  omega

theorem invert_build_read_above {n : Nat} (hn : n ≤ 2 ^ 32) (s : State) {i : Nat} (hi : n ≤ i) :
    Memory.read (invert n (build n s)).inv i = Memory.read s.inv i := by
  rw [invert_read_miss]
  · rw [build_frame]
  · intro k hk he
    rw [build_readPerm hn s hk] at he
    have := permutationOf_lt (seed := s.seed) hk
    omega

/-- `SHUF.D`'s output: the bytes of pixel `PERM[j]` are those of source pixel `j` (R102). -/
theorem shuffleDecrypt_read {n : Nat} (hn : n ≤ 2 ^ 32) (s : State) {j c : Nat} (hj : j < n) (hc : c < 4) :
    Memory.read (shuffleDecrypt n s).dst (4 * permutationOf n s.seed j + c) = some (s.readSrc (4 * j + c)) := by
  unfold shuffleDecrypt
  have hp := permutationOf_lt (seed := s.seed) hj
  have hd : (4 * permutationOf n s.seed j + c) / 4 = permutationOf n s.seed j := by omega
  have hm : (4 * permutationOf n s.seed j + c) % 4 = c := by omega
  have h1 : ∀ k, (invert n (build n s)).readSrc k = s.readSrc k := fun k => by rw [invert_frame, build_frame]; rfl
  rw [gatherInv_read, if_pos (by omega), hd, hm, h1, State.readInv, invert_build_read hn s hj, Option.getD_some,
    BitVec.toNat_ofNat, Nat.mod_eq_of_lt (by omega)]

theorem shuffleDecrypt_read_above {n : Nat} (s : State) {a : Nat} (ha : 4 * n ≤ a) :
    Memory.read (shuffleDecrypt n s).dst a = Memory.read s.dst a := by
  unfold shuffleDecrypt
  rw [gatherInv_read, if_neg (by omega), invert_frame, build_frame]

end Sys2Proof.Machine
end

