-- ==== Sys2Proof/Laws/Step.lean ====
section
/-! SUPPORT. What one step can do, said once: the block's turn, issue, a host access, a host event. -/

namespace Sys2Proof.Machine

@[simp] theorem statusBusyBit_idle : statusBusyBit statusIdle = false := by decide
@[simp] theorem statusBusyBit_busy : statusBusyBit statusBusy = true := by decide
@[simp] theorem statusBusyBit_done : statusBusyBit statusDone = false := by decide
@[simp] theorem statusBusyBit_rejected (e : ErrorCause) : statusBusyBit (statusRejected e) = false := by
  cases e <;> decide

@[simp] theorem busy_reject (s : State) (e : ErrorCause) : (s.reject e).busy = false := statusBusyBit_rejected e
@[simp] theorem busy_accept (s : State) : s.accept.busy = true := statusBusyBit_busy
@[simp] theorem busy_complete (s : State) : s.complete.busy = false := statusBusyBit_done

/-- The host may perform any transaction exactly when the block is not busy and no read of `STATUS` is owed. -/
theorem held_false_iff {s : State} : s.held = false ↔ s.busy = false ∧ s.unread = false := by simp [State.held]

theorem busy_of_held {s : State} (h : s.held = false) : s.busy = false := (held_false_iff.mp h).1

theorem unread_of_held {s : State} (h : s.held = false) : s.unread = false := (held_false_iff.mp h).2

@[simp] theorem busy_afterStatusRead (s : State) : s.afterStatusRead.busy = s.busy := rfl

/-- A state whose host owes no read of `STATUS`. -/
def State.released (s : State) : State := { s with unread := false }

@[simp] theorem released_busy (s : State) : s.released.busy = s.busy := rfl

theorem held_released {s : State} (h : s.busy = false) : s.released.held = false := held_false_iff.mpr ⟨h, rfl⟩

/-- A read of `STATUS` that finds the block busy changes nothing; one that does not ends the wait. -/
theorem afterStatusRead_busy {s : State} (h : s.busy = true) : s.afterStatusRead = s := by simp [State.afterStatusRead, h]

theorem afterStatusRead_idle {s : State} (h : s.busy = false) : s.afterStatusRead = s.released := by
  simp [State.afterStatusRead, State.released, h]

theorem afterStatusRead_of_held {s : State} (h : s.held = false) : s.afterStatusRead = s := by
  simp [State.afterStatusRead, busy_of_held h, ← unread_of_held h]

theorem held_afterStatusRead {s : State} (h : s.busy = false) : s.afterStatusRead.held = false := by
  rw [held_false_iff]; exact ⟨h, by simp [h]⟩

theorem busy_of_status_busy {s : State} (h : s.status = statusBusy) : s.busy = true := by
  unfold State.busy; rw [h]; exact statusBusyBit_busy

theorem not_busy_of_status {s : State} (h : s.status = statusIdle ∨ s.status = statusDone ∨ ∃ e, s.status = statusRejected e) :
    s.busy = false := by
  unfold State.busy
  rcases h with h | h | ⟨e, h⟩ <;> rw [h] <;> simp

/-- The result of a command does not depend on the `STATUS` it started from (R140). -/
theorem exec_status (i : Instr) (s : State) (v : Word) : exec i { s with status := v } = exec i s := by
  rw [exec_eq, exec_eq, check_congr i (s := s) (t := { s with status := v }) rfl rfl rfl rfl rfl]
  cases i <;> (cases check _ s <;> rfl)

/-- An accepted command's result does not depend on whether the acceptance is already in the state. -/
theorem exec_accept {i : Instr} {s : State} (h : check i s = none) : exec i s.accept = exec i s := by
  rw [exec_of_accepted h, exec_of_accepted (s := s.accept) ((check_congr i (s := s) (t := s.accept) rfl rfl rfl rfl rfl).trans h)]
  cases i <;> rfl

/-- Once a command has run, the block is not busy. -/
theorem busy_of_exec {i : Instr} {s t : State} (h : exec i s = .next t) : t.busy = false := by
  rcases exec_cases i s with ⟨e, _, h'⟩ | ⟨_, h'⟩ <;> rw [h'] at h <;> cases h <;> simp

theorem issue_illegal {w : Word} {why : IllegalWord} (h : decode w = .illegal why) (s : State) :
    issue w s = { s with cmd := w, status := statusRejected .eOp } := by
  unfold issue; rw [h]; rfl

theorem check_cmd (i : Instr) (s : State) (w : Word) : check i { s with cmd := w } = check i s :=
  check_congr i (s := s) (t := { s with cmd := w }) rfl rfl rfl rfl rfl

theorem issue_rejected {w : Word} {i : Instr} {e : ErrorCause} {s : State} (h : decode w = .legal i)
    (hc : check i s = some e) : issue w s = { s with cmd := w, status := statusRejected e } := by
  simp only [issue, h, check_cmd, hc]; rfl

theorem issue_accepted {w : Word} {i : Instr} {s : State} (h : decode w = .legal i) (hc : check i s = none) :
    issue w s = { s with cmd := w, status := statusBusy, unread := true } := by
  simp only [issue, h, check_cmd, hc]; rfl

theorem blockTurn_idle {s : State} (h : s.busy = false) : blockTurn s = .next s := by
  unfold blockTurn; rw [if_neg (by simp [h])]

theorem blockTurn_busy {s : State} {i : Instr} (h : s.busy = true) (hd : decode s.cmd = .legal i) :
    blockTurn s = exec i s := by
  unfold blockTurn; rw [if_pos h, hd]

theorem blockTurn_stuck {s : State} {why : IllegalWord} (h : s.busy = true) (hd : decode s.cmd = .illegal why) :
    blockTurn s = .fault .busyWithoutCommand := by
  unfold blockTurn; rw [if_pos h, hd]

/-- Issue followed at once by the block's turn is `exec` (R110, R113). -/
theorem blockTurn_issue {w : Word} {i : Instr} (h : decode w = .legal i) (s : State) :
    blockTurn (issue w s) = exec i { s with cmd := w } := by
  cases hc : check i s with
  | some e =>
    rw [issue_rejected h hc, blockTurn_idle (s := { s with cmd := w, status := statusRejected e }) (statusBusyBit_rejected e),
      exec_of_rejected (s := { s with cmd := w }) (by rw [check_cmd, hc])]
    rfl
  | none =>
    rw [issue_accepted h hc,
      blockTurn_busy (s := { s with cmd := w, status := statusBusy, unread := true }) (i := i) statusBusyBit_busy h]
    exact exec_accept (s := { s with cmd := w }) (by rw [check_cmd, hc])

theorem access_held {s : State} {t : Transaction} (h : s.held = true) (ht : t ≠ readStatus) :
    access t s = .refused .hostWhileBusy := by
  unfold access; rw [if_pos ⟨h, ht⟩]

theorem access_not_provided {s : State} {t : Transaction} (h : s.held = false) (hp : provided s.maxPix t = false) :
    access t s = .refused (refusalOf t) := by
  unfold access; rw [if_neg (by simp [h]), if_pos hp]

theorem access_provided {s : State} {t : Transaction} (h : s.held = false) (hp : provided s.maxPix t = true) :
    access t s = .next ((s.afterAccess t).logReply (s.replyTo t)) := by
  unfold access; rw [if_neg (by simp [h]), if_neg (by simp [hp])]

/-- A read of `STATUS` is provided always (R12). -/
theorem access_readStatus (s : State) :
    access readStatus s = .next { s.afterStatusRead with replies := s.replies ++ [.word s.status] } := by
  unfold access
  rw [if_neg (by simp), if_neg (by simp [provided, wordProvided, regAt])]
  rfl

/-- A host transaction ends in one of three ways. -/
theorem access_cases (t : Transaction) (s : State) :
    (s.held = true ∧ t ≠ readStatus ∧ access t s = .refused .hostWhileBusy) ∨
      (provided s.maxPix t = false ∧ access t s = .refused (refusalOf t)) ∨
      ((s.held = true → t = readStatus) ∧ provided s.maxPix t = true ∧
        access t s = .next ((s.afterAccess t).logReply (s.replyTo t))) := by
  unfold access
  by_cases h1 : s.held = true ∧ t ≠ readStatus
  · rw [if_pos h1]; exact .inl ⟨h1.1, h1.2, rfl⟩
  · rw [if_neg h1]
    have h1' : s.held = true → t = readStatus := fun hb => by
      by_contra hne; exact h1 ⟨hb, hne⟩
    by_cases h2 : provided s.maxPix t = false
    · rw [if_pos h2]; exact .inr (.inl ⟨h2, rfl⟩)
    · rw [if_neg h2]; exact .inr (.inr ⟨h1', by simpa using h2, rfl⟩)

theorem hostEvent_next {t : Transaction} {s s' : State} (turn : Bool) (h : access t s = .next s') :
    hostEvent t turn s = if turn then blockTurn s' else .next s' := by
  unfold hostEvent; rw [h]

theorem hostEvent_refused {t : Transaction} {s : State} {r : Refusal} (turn : Bool) (h : access t s = .refused r) :
    hostEvent t turn s = .refused r := by
  unfold hostEvent; rw [h]

/-- A transaction that leaves the block idle is the same whether or not the block's turn follows. -/
theorem hostEvent_idle {t : Transaction} {s s' : State} (turn : Bool) (h : access t s = .next s') (hb : s'.busy = false) :
    hostEvent t turn s = .next s' := by
  rw [hostEvent_next turn h, blockTurn_idle hb]; simp

theorem step_host {s : State} {t : Transaction} {turn : Bool} {rest : List Event} (h : s.events = .host t turn :: rest) :
    step s = hostEvent t turn { s with events := rest } := by
  unfold step stepState; rw [h]; rfl

theorem step_reset {s : State} {rest : List Event} (h : s.events = .reset :: rest) :
    step s = .next { s with events := rest }.resetBlock := by
  unfold step stepState; rw [h]; rfl

theorem step_nil {s : State} (h : s.events = []) : step s = blockTurn s := by
  unfold step stepState; rw [h]

/-- A write to `CMD` by a host that owes no read of `STATUS` is its issue. -/
theorem access_writeCmd {s : State} (h : s.held = false) (w : Word) : access (.wr32 .reg 0x00 w) s = .next (issue w s) := by
  rw [access_provided h rfl]
  have : (issue w s).logReply none = issue w s := by simp [State.logReply]
  exact congrArg _ this

/-- A read of `STATUS`, in any state. -/
theorem step_readStatus {s : State} {turn : Bool} {rest : List Event}
    (h : s.events = .host (.rd32 .reg 0x04) turn :: rest) :
    step s = if turn then blockTurn (s.afterStatusRead.withWorld rest (s.replies ++ [.word s.status]))
      else .next (s.afterStatusRead.withWorld rest (s.replies ++ [.word s.status])) := by
  rw [step_host h, hostEvent_next turn (access_readStatus { s with events := rest })]
  rfl

/-- Several steps of the host's machine: one, then the rest. -/
theorem run_succ {k : Nat} {s t : State} (h : step s = .next t) :
    Host.Core.run Sys2Proof.core (k + 1) s = Host.Core.run Sys2Proof.core k t := by
  have h' : Sys2Proof.core.step s = .next t := h
  simp only [Host.Core.run, h']

theorem run_zero (s : State) : Host.Core.run Sys2Proof.core 0 s = .next s := rfl

end Sys2Proof.Machine
end

