-- ==== Sys2Proof/Laws/Driver.lean ====
section
/-! SUPPORT. One specification lemma per driver function: what a host script leaves and returns on a block the host may use. -/

namespace Sys2Proof.Machine

/-! ### One transaction -/

/-- A transaction that leaves the block idle returns its reply, whether or not the block's turn follows. -/
theorem transact_idle {t : Transaction} {s : State} (turn : Bool) (h : s.held = false) (hp : provided s.maxPix t = true)
    (hb : (s.afterAccess t).busy = false) :
    transact t turn s = .returned (s.replyTo t) ((s.afterAccess t).logReply (s.replyTo t)) := by
  unfold transact
  rw [hostEvent_idle turn (access_provided h hp) hb]

@[simp] theorem logReply_none (s : State) : s.logReply none = s := by simp [State.logReply]

@[simp] theorem withWorld_busy (s : State) (ev : List Event) (rp : List Reply) : (s.withWorld ev rp).busy = s.busy := rfl

@[simp] theorem withWorld_held (s : State) (ev : List Event) (rp : List Reply) : (s.withWorld ev rp).held = s.held := rfl

theorem transact_writeSrc {s : State} {a : Nat} (h : s.held = false) (ha : a < 4 * s.maxPix) (b : Byte) (turn : Bool) :
    transact (.wr8 .src a b) turn s = .returned none (s.writeSrc a b) := by
  rw [transact_idle (t := .wr8 .src a b) turn h (by simpa [provided, byteProvided] using ha) (busy_of_held h)]
  exact congrArg _ (logReply_none _)

theorem transact_readDst {s : State} {a : Nat} (h : s.held = false) (ha : a < 4 * s.maxPix) (turn : Bool) :
    transact (.rd8 .dst a) turn s =
      .returned (some (.byte (s.readDst a))) (s.withWorld s.events (s.replies ++ [.byte (s.readDst a)])) := by
  rw [transact_idle (t := .rd8 .dst a) turn h (by simpa [provided, byteProvided] using ha) (busy_of_held h)]
  rfl

theorem transact_writePerm {s : State} {i : Nat} (h : s.held = false) (hi : i < s.maxPix) (w : Word) (turn : Bool) :
    transact (.wre .perm i w) turn s = .returned none (s.writePerm i w) := by
  rw [transact_idle (t := .wre .perm i w) turn h (by simpa [provided, entryProvided] using hi) (busy_of_held h)]
  exact congrArg _ (logReply_none _)

theorem transact_readPerm {s : State} {i : Nat} (h : s.held = false) (hi : i < s.maxPix) (turn : Bool) :
    transact (.rde .perm i) turn s =
      .returned (some (.word (s.readPerm i))) (s.withWorld s.events (s.replies ++ [.word (s.readPerm i)])) := by
  rw [transact_idle (t := .rde .perm i) turn h (by simpa [provided, entryProvided] using hi) (busy_of_held h)]
  rfl

theorem transact_readInv {s : State} {i : Nat} (h : s.held = false) (hi : i < s.maxPix) (turn : Bool) :
    transact (.rde .inv i) turn s =
      .returned (some (.word (s.readInv i))) (s.withWorld s.events (s.replies ++ [.word (s.readInv i)])) := by
  rw [transact_idle (t := .rde .inv i) turn h (by simpa [provided, entryProvided] using hi) (busy_of_held h)]
  rfl

theorem writeRegister_seed {s : State} (h : s.held = false) (v : Word) :
    writeRegister .seed v s = .returned none { s with seed := v } := by
  unfold writeRegister regOffset
  rw [transact_idle (t := .wr32 .reg 0x08 v) true h rfl (busy_of_held h)]
  exact congrArg _ (logReply_none _)

theorem writeRegister_buflen {s : State} (h : s.held = false) (v : Word) :
    writeRegister .buflen v s = .returned none { s with buflen := v } := by
  unfold writeRegister regOffset
  rw [transact_idle (t := .wr32 .reg 0x0C v) true h rfl (busy_of_held h)]
  exact congrArg _ (logReply_none _)

theorem writeRegister_pn {s : State} (h : s.held = false) (v : Word) :
    writeRegister .pn v s = .returned none { s with pn := v } := by
  unfold writeRegister regOffset
  rw [transact_idle (t := .wr32 .reg 0x10 v) true h rfl (busy_of_held h)]
  exact congrArg _ (logReply_none _)

/-- `RD` of any register: its value, nothing changed but the record of replies. -/
theorem readRegister_eq {s : State} (h : s.held = false) (r : RegName) :
    readRegister r s = .returned (some (.word (s.readReg r))) (s.withWorld s.events (s.replies ++ [.word (s.readReg r)])) := by
  unfold readRegister
  cases r with
  | status =>
    show transact (.rd32 .reg 0x04) true s = _
    rw [transact_idle (t := .rd32 .reg 0x04) true h rfl ((busy_afterStatusRead s).trans (busy_of_held h))]
    show DriverResult.returned _ (s.afterStatusRead.logReply (some (.word s.status))) = _
    rw [afterStatusRead_of_held h]
    rfl
  | _ => exact transact_idle true h rfl (busy_of_held h)

/-! ### Block transfers -/

/-- `LDB SRC`: the bytes stand at their offsets, every other byte of `SRC` and everything else is unchanged. -/
theorem loadBytes_src {bs : List Byte} {s : State} {a : Nat} (h : s.held = false) (ha : a + bs.length ≤ 4 * s.maxPix) :
    ∃ m : Memory Byte, loadBytes .src a bs s = .returned () { s with src := m } ∧
      ∀ k, Memory.read m k = if a ≤ k ∧ k < a + bs.length then some (bs.getD (k - a) 0) else Memory.read s.src k := by
  induction bs generalizing s a with
  | nil =>
    refine ⟨s.src, rfl, fun k => ?_⟩
    rw [if_neg (by simp only [List.length_nil]; omega)]
  | cons b bs ih =>
    rw [List.length_cons] at ha
    obtain ⟨m, h1, h2⟩ := ih (s := s.writeSrc a b) (a := a + 1) h (show a + 1 + bs.length ≤ 4 * s.maxPix by omega)
    refine ⟨m, ?_, fun k => ?_⟩
    · show (transact (.wr8 .src a b) true s).bind _ = _
      rw [transact_writeSrc h (by omega)]
      exact h1
    · rw [h2, List.length_cons, State.writeSrc_src, Memory.read_write]
      by_cases hk : k = a
      · subst hk
        rw [if_neg (by omega), if_pos rfl, if_pos (by omega), Nat.sub_self]; rfl
      · by_cases hk' : a + 1 ≤ k ∧ k < a + 1 + bs.length
        · rw [if_pos hk', if_pos (by omega), show k - a = (k - (a + 1)) + 1 by omega, List.getD_cons_succ]
        · rw [if_neg hk', if_neg hk, if_neg (by omega)]

/-- `LDE PERM`: the entries stand at their indices, every other entry and everything else is unchanged. -/
theorem loadEntries_perm {es : List Word} {s : State} {i : Nat} (h : s.held = false) (hi : i + es.length ≤ s.maxPix) :
    ∃ m : Memory Word, loadEntries .perm i es s = .returned () { s with perm := m } ∧
      ∀ k, Memory.read m k = if i ≤ k ∧ k < i + es.length then some (es.getD (k - i) 0) else Memory.read s.perm k := by
  induction es generalizing s i with
  | nil =>
    refine ⟨s.perm, rfl, fun k => ?_⟩
    rw [if_neg (by simp only [List.length_nil]; omega)]
  | cons e es ih =>
    rw [List.length_cons] at hi
    obtain ⟨m, h1, h2⟩ := ih (s := s.writePerm i e) (i := i + 1) h (show i + 1 + es.length ≤ s.maxPix by omega)
    refine ⟨m, ?_, fun k => ?_⟩
    · show (transact (.wre .perm i e) true s).bind _ = _
      rw [transact_writePerm h (by omega)]
      exact h1
    · rw [h2, List.length_cons, State.writePerm_perm, Memory.read_write]
      by_cases hk : k = i
      · subst hk
        rw [if_neg (by omega), if_pos rfl, if_pos (by omega), Nat.sub_self]; rfl
      · by_cases hk' : i + 1 ≤ k ∧ k < i + 1 + es.length
        · rw [if_pos hk', if_pos (by omega), show k - i = (k - (i + 1)) + 1 by omega, List.getD_cons_succ]
        · rw [if_neg hk', if_neg hk, if_neg (by omega)]

/-- Reading `DST` byte by byte returns its bytes and changes nothing but the record of replies. -/
theorem fetchBytes_dst {n : Nat} {s : State} {a : Nat} (h : s.held = false) (ha : a + n ≤ 4 * s.maxPix) :
    ∃ r : List Reply, fetchBytes .dst a n s =
      .returned ((List.range' a n).map s.readDst) (s.withWorld s.events r) := by
  induction n generalizing s a with
  | zero => exact ⟨s.replies, rfl⟩
  | succ n ih =>
    obtain ⟨r, h1⟩ := ih (s := s.withWorld s.events (s.replies ++ [.byte (s.readDst a)])) (a := a + 1) h
      (show a + 1 + n ≤ 4 * s.maxPix by omega)
    refine ⟨r, ?_⟩
    show (transact (.rd8 .dst a) true s).bind _ = _
    rw [transact_readDst h (by omega)]
    simp only [DriverResult.bind, h1, List.range'_succ, List.map_cons]
    rfl

/-- Reading `PERM` entry by entry returns its entries and changes nothing but the record of replies. -/
theorem fetchEntries_perm {n : Nat} {s : State} {i : Nat} (h : s.held = false) (hi : i + n ≤ s.maxPix) :
    ∃ r : List Reply, fetchEntries .perm i n s =
      .returned ((List.range' i n).map s.readPerm) (s.withWorld s.events r) := by
  induction n generalizing s i with
  | zero => exact ⟨s.replies, rfl⟩
  | succ n ih =>
    obtain ⟨r, h1⟩ := ih (s := s.withWorld s.events (s.replies ++ [.word (s.readPerm i)])) (i := i + 1) h
      (show i + 1 + n ≤ s.maxPix by omega)
    refine ⟨r, ?_⟩
    show (transact (.rde .perm i) true s).bind _ = _
    rw [transact_readPerm h (by omega)]
    simp only [DriverResult.bind, h1, List.range'_succ, List.map_cons]
    rfl

/-- Reading `INV` entry by entry returns its entries and changes nothing but the record of replies. -/
theorem fetchEntries_inv {n : Nat} {s : State} {i : Nat} (h : s.held = false) (hi : i + n ≤ s.maxPix) :
    ∃ r : List Reply, fetchEntries .inv i n s =
      .returned ((List.range' i n).map s.readInv) (s.withWorld s.events r) := by
  induction n generalizing s i with
  | zero => exact ⟨s.replies, rfl⟩
  | succ n ih =>
    obtain ⟨r, h1⟩ := ih (s := s.withWorld s.events (s.replies ++ [.word (s.readInv i)])) (i := i + 1) h
      (show i + 1 + n ≤ s.maxPix by omega)
    refine ⟨r, ?_⟩
    show (transact (.rde .inv i) true s).bind _ = _
    rw [transact_readInv h (by omega)]
    simp only [DriverResult.bind, h1, List.range'_succ, List.map_cons]
    rfl

/-- `COPY DST, SRC` from offset `k` on: the bytes of `SRC` there become those of `DST`; all else but the replies is unchanged. -/
theorem copyBack_eq {n : Nat} {s : State} {k : Nat} (h : s.held = false) (hk : k + n ≤ 4 * s.maxPix) :
    ∃ (m : Memory Byte) (r : List Reply), copyBack k n s = .returned () { s with src := m, replies := r } ∧
      ∀ a, Memory.read m a = if k ≤ a ∧ a < k + n then some (s.readDst a) else Memory.read s.src a := by
  induction n generalizing s k with
  | zero =>
    refine ⟨s.src, s.replies, rfl, fun a => ?_⟩
    rw [if_neg (by omega)]
  | succ n ih =>
    let s₁ : State := s.withWorld s.events (s.replies ++ [.byte (s.readDst k)])
    obtain ⟨m, r, h1, h2⟩ := ih (s := s₁.writeSrc k (s.readDst k)) (k := k + 1) h
      (show k + 1 + n ≤ 4 * s.maxPix by omega)
    refine ⟨m, r, ?_, fun a => ?_⟩
    · show (transact (.rd8 .dst k) true s).bind _ = _
      rw [transact_readDst h (by omega)]
      show (transact (.wr8 .src k (s.readDst k)) true s₁).bind _ = _
      rw [transact_writeSrc (s := s₁) h (show k < 4 * s.maxPix by omega)]
      exact h1
    · rw [h2, State.writeSrc_src, Memory.read_write]
      show (if k + 1 ≤ a ∧ a < k + 1 + n then some (s.readDst a)
        else if a = k then some (s.readDst k) else Memory.read s.src a) = _
      by_cases ha : a = k
      · subst ha
        rw [if_neg (by omega), if_pos rfl, if_pos (by omega)]
      · by_cases ha' : k + 1 ≤ a ∧ a < k + 1 + n
        · rw [if_pos ha', if_pos (by omega)]
        · rw [if_neg ha', if_neg ha, if_neg (by omega)]

/-! ### A command and its wait -/

/-- The state after a host read has returned `STATUS`: one reply more. -/
def State.statusLogged (s : State) : State := s.withWorld s.events (s.replies ++ [Reply.word s.status])

@[simp] theorem statusLogged_busy (s : State) : s.statusLogged.busy = s.busy := rfl

@[simp] theorem statusLogged_status (s : State) : s.statusLogged.status = s.status := rfl

/-- A read of `STATUS` on a block that is not busy returns `STATUS` and ends the host's wait. -/
theorem pollStatus_idle {s : State} (h : s.busy = false) (turn : Bool) :
    pollStatus turn s = .returned s.status s.released.statusLogged := by
  unfold pollStatus transact
  rw [hostEvent_idle turn (access_readStatus s) h, afterStatusRead_idle h]
  rfl

/-- A read of `STATUS` on a busy block that goes on running changes nothing but the record of replies. -/
theorem pollStatus_busy {s : State} (h : s.busy = true) : pollStatus false s = .returned s.status s.statusLogged := by
  unfold pollStatus transact
  rw [hostEvent_next false (access_readStatus s), afterStatusRead_busy h]
  rfl

/-- What a read of `STATUS` that returned `w` gives the host when the block's turn follows it. -/
def afterTurn (w : Word) : Host.Outcome State Fault Refusal → DriverResult Word
  | .next s => .returned w s
  | .fault f => .fault f
  | .refused r => .refused r

theorem pollStatus_turn {s : State} (h : s.busy = true) :
    pollStatus true s = afterTurn s.status (blockTurn s.statusLogged) := by
  have hr : replyWord (s.replyTo readStatus) = s.status := rfl
  unfold pollStatus transact
  rw [hostEvent_next true (access_readStatus s), afterStatusRead_busy h, if_pos rfl]
  show DriverResult.bind (match blockTurn s.statusLogged with
    | .next s' => DriverResult.returned (s.replyTo readStatus) s'
    | .fault f => .fault f
    | .refused r => .refused r) _ = _
  cases blockTurn s.statusLogged with
  | next u => simp only [DriverResult.bind, hr, afterTurn]
  | fault f => rfl
  | refused r => rfl

/-- The read after which the block completes its command. -/
theorem pollStatus_completes {s t : State} {i : Instr} (h : s.busy = true) (hd : decode s.cmd = .legal i)
    (he : exec i s = .next t) :
    pollStatus true s = .returned s.status (t.withWorld s.events (s.replies ++ [Reply.word s.status])) := by
  have hx : exec i s.statusLogged = .next (t.withWorld s.events (s.replies ++ [Reply.word s.status])) :=
    exec_withWorld _ _ he
  rw [pollStatus_turn h, blockTurn_busy (s := s.statusLogged) h hd, hx]
  rfl

theorem waitDone_zero (s : State) :
    waitDone 0 s = (pollStatus true s).bind (fun w s => if statusBusyBit w then pollStatus true s else .returned w s) := rfl

theorem waitDone_one (s : State) :
    waitDone 1 s = (pollStatus true s).bind (fun w s => if statusBusyBit w then waitDone 0 s else .returned w s) := rfl

theorem waitDone_more (d : Nat) (s : State) :
    waitDone (d + 2) s =
      (pollStatus false s).bind (fun w s => if statusBusyBit w then waitDone (d + 1) s else .returned w s) := rfl

/-- `WAIT` on a block that is not busy returns `STATUS` at once. -/
theorem waitDone_idle {s : State} (h : s.busy = false) (d : Nat) :
    waitDone d s = .returned s.status s.released.statusLogged := by
  have hb : statusBusyBit s.status = false := h
  match d with
  | 0 => rw [waitDone_zero, pollStatus_idle h]; simp [DriverResult.bind, hb]
  | 1 => rw [waitDone_one, pollStatus_idle h]; simp [DriverResult.bind, hb]
  | d + 2 => rw [waitDone_more, pollStatus_idle h]; simp [DriverResult.bind, hb]

/-- `WAIT` on a busy block, for every delay: it reads `STATUS` until the command has completed and returns what the command
left there; the host owes no read after it. -/
theorem waitDone_busy {s t : State} {i : Instr} (d : Nat) (h : s.busy = true) (hd : decode s.cmd = .legal i)
    (he : exec i s = .next t) :
    ∃ r : List Reply, waitDone d s = .returned t.status (t.released.withWorld s.events r) := by
  have hb : statusBusyBit s.status = true := h
  let u : State := t.withWorld s.events (s.replies ++ [Reply.word s.status])
  have ht : t.busy = false := busy_of_exec he
  have hu : u.busy = false := ht
  match d with
  | 0 =>
    refine ⟨u.replies ++ [Reply.word t.status], ?_⟩
    rw [waitDone_zero, pollStatus_completes h hd he]
    simp only [DriverResult.bind, hb, if_true]
    exact pollStatus_idle hu true
  | 1 =>
    refine ⟨u.replies ++ [Reply.word t.status], ?_⟩
    rw [waitDone_one, pollStatus_completes h hd he]
    simp only [DriverResult.bind, hb, if_true]
    exact waitDone_idle hu 0
  | d + 2 =>
    obtain ⟨r, hr⟩ := waitDone_busy (s := s.statusLogged) (t := u) (d + 1) h hd (exec_withWorld _ _ he)
    refine ⟨r, ?_⟩
    rw [waitDone_more, pollStatus_busy h]
    simp only [DriverResult.bind, hb, if_true]
    exact hr

/-- A legal command issued by a host that owes no read, then `WAIT`: whatever the delay, the state `exec` leaves, and its
`STATUS`; a rejected command fails with the driver's cause. -/
theorem commandAndWait_eq {α : Type} {s t : State} {w : Word} {i : Instr} (delay : Nat) (k : State → DriverResult α)
    (h : s.held = false) (hd : decode w = .legal i) (he : exec i { s with cmd := w } = .next t) :
    ∃ r : List Reply,
      commandAndWait delay w k s = failOnError t.status k (t.released.withWorld s.events r) := by
  have ht : t.busy = false := busy_of_exec he
  suffices hs : ∃ r, (issueCommand w delay s).bind (fun _ s => waitDone delay s) =
      .returned t.status (t.released.withWorld s.events r) by
    obtain ⟨r, hr⟩ := hs
    refine ⟨r, ?_⟩
    unfold commandAndWait
    cases hi : issueCommand w delay s with
    | returned a u =>
      rw [hi] at hr
      simp only [DriverResult.bind] at hr ⊢
      rw [hr]
    | invalid c u => rw [hi] at hr; cases hr
    | refused c => rw [hi] at hr; cases hr
    | fault c => rw [hi] at hr; cases hr
  unfold issueCommand transact
  show ∃ r, DriverResult.bind (match hostEvent (.wr32 .reg 0x00 w) (delay == 0) s with
      | .next s' => DriverResult.returned none s'
      | .fault f => .fault f
      | .refused r => .refused r) _ = _
  rw [hostEvent_next _ (access_writeCmd h w)]
  have hev : t.events = s.events := by
    rcases exec_cases i { s with cmd := w } with ⟨e, -, h2⟩ | ⟨-, h2⟩
    · rw [h2] at he; cases he; rfl
    · rw [h2] at he; cases he; rw [procedure_frame]; rfl
  cases delay with
  | zero =>
    rw [if_pos (by rfl), blockTurn_issue hd, he]
    refine ⟨t.replies ++ [.word t.status], ?_⟩
    show waitDone 0 t = _
    rw [waitDone_idle ht, ← hev]
    rfl
  | succ d =>
    rw [if_neg (by simp)]
    show ∃ r, waitDone (d + 1) (issue w s) = _
    cases hc : check i s with
    | some e =>
      rw [exec_of_rejected (s := { s with cmd := w }) (by rw [check_cmd, hc])] at he
      cases he
      rw [issue_rejected hd hc]
      exact ⟨_, waitDone_idle (s := { s with cmd := w, status := statusRejected e }) (statusBusyBit_rejected e) (d + 1)⟩
    | none =>
      rw [issue_accepted hd hc]
      refine waitDone_busy (s := { s with cmd := w, status := statusBusy, unread := true }) (i := i) (d + 1) statusBusyBit_busy
        hd ?_
      rw [← he]
      exact exec_accept (s := { s with cmd := w }) (by rw [check_cmd, hc])

/-- A busy block with an illegal word in `CMD` (no run reaches one) never lets `WAIT` return. -/
theorem waitDone_fault {s : State} {why : IllegalWord} (d : Nat) (h : s.busy = true) (hd : decode s.cmd = .illegal why) :
    waitDone d s = .fault .busyWithoutCommand := by
  have hb : statusBusyBit s.status = true := h
  have poll : pollStatus true s = .fault .busyWithoutCommand := by
    rw [pollStatus_turn h, blockTurn_stuck (s := s.statusLogged) h hd]
    rfl
  match d with
  | 0 => rw [waitDone_zero, poll]; rfl
  | 1 => rw [waitDone_one, poll]; rfl
  | d + 2 =>
    rw [waitDone_more, pollStatus_busy h]
    simp only [DriverResult.bind, hb, if_true]
    exact waitDone_fault (s := s.statusLogged) (d + 1) h hd

end Sys2Proof.Machine
end

