-- ==== Sys2Proof/Laws/Invariant.lean ====
section
/-! SUPPORT. Every memory operation keeps the canonical form and the bounds of the four memories. -/

namespace Sys2Proof.Machine

/-- A memory in canonical form with no location outside its size. -/
def Memory.Good {α : Type} (m : Memory α) (size : Nat) : Prop := Memory.wf m ∧ Memory.within m size

theorem Memory.good_nil {α : Type} (size : Nat) : Memory.Good ([] : Memory α) size :=
  ⟨List.Pairwise.nil, fun _ h => nomatch h⟩

theorem Memory.good_write {α : Type} {m : Memory α} {size a : Nat} (h : Memory.Good m size) (ha : a < size) (v : α) :
    Memory.Good (Memory.write m a v) size := ⟨Memory.write_wf h.1 a v, Memory.write_within h.2 ha v⟩

theorem bytePass_good {f : Byte → Byte} {alpha : Bool} {n size : Nat} {s : State} (hn : 4 * n ≤ size)
    (h : Memory.Good s.dst size) : Memory.Good (bytePass f alpha n s).dst size := by
  induction n with
  | zero => exact h
  | succ n ih =>
    have h' := ih (by omega)
    show Memory.Good (bytePixel f alpha n (bytePass f alpha n s)).dst size
    unfold bytePixel
    split <;>
      exact Memory.good_write (Memory.good_write (Memory.good_write (Memory.good_write h' (by omega) _) (by omega) _)
        (by omega) _) (by omega) _

theorem copyPixel_good {d m size : Nat} {s : State} (hd : 4 * d + 3 < size) (h : Memory.Good s.dst size) :
    Memory.Good (copyPixel d m s).dst size :=
  Memory.good_write (Memory.good_write (Memory.good_write (Memory.good_write h (by omega) _) (by omega) _) (by omega) _)
    (by omega) _

theorem gatherPerm_good {n size : Nat} {s : State} (hn : 4 * n ≤ size) (h : Memory.Good s.dst size) :
    Memory.Good (gatherPerm n s).dst size := by
  induction n with
  | zero => exact h
  | succ n ih => exact copyPixel_good (by omega) (ih (by omega))

theorem gatherInv_good {n size : Nat} {s : State} (hn : 4 * n ≤ size) (h : Memory.Good s.dst size) :
    Memory.Good (gatherInv n s).dst size := by
  induction n with
  | zero => exact h
  | succ n ih => exact copyPixel_good (by omega) (ih (by omega))

theorem identityPass_good {n size : Nat} {s : State} (hn : n ≤ size) (h : Memory.Good s.perm size) :
    Memory.Good (identityPass n s).perm size := by
  induction n with
  | zero => exact h
  | succ n ih => exact Memory.good_write (ih (by omega)) (by omega) _

theorem swapPerm_good {i r size : Nat} {s : State} (hi : i < size) (hr : r < size) (h : Memory.Good s.perm size) :
    Memory.Good (s.swapPerm i r).perm size := by
  unfold State.swapPerm
  split
  · exact h
  · exact Memory.good_write (Memory.good_write h hi _) hr _

theorem fisherYates_good {k size : Nat} {s : State} (hk : k < size) (h : Memory.Good s.perm size) :
    Memory.Good (fisherYates k s).perm size := by
  induction k generalizing s with
  | zero => exact h
  | succ k ih =>
    refine ih (s := fisherYatesStep (k + 1) s) (by omega) (swapPerm_good (s := s.draw) hk ?_ h)
    exact Nat.lt_of_lt_of_le (Nat.mod_lt _ (by omega)) (by omega)

theorem build_good {n size : Nat} {s : State} (hn : n ≤ size) (h : Memory.Good s.perm size) :
    Memory.Good (build n s).perm size := by
  rcases Nat.eq_zero_or_pos n with h0 | hpos
  · subst h0; exact h
  · exact fisherYates_good (by omega) (identityPass_good (s := s.reseed) hn h)

theorem invert_good {n size : Nat} {s : State} (hp : ∀ i < n, (s.readPerm i).toNat < size) (h : Memory.Good s.inv size) :
    Memory.Good (invert n s).inv size := by
  induction n with
  | zero => exact h
  | succ n ih =>
    show Memory.Good ((invert n s).writeInv ((invert n s).readPerm n).toNat (BitVec.ofNat 32 n)).inv size
    rw [State.writeInv_inv, invert_readPerm]
    exact Memory.good_write (ih (fun i hi => hp i (by omega))) (hp n (by omega)) _

theorem shuffleEncrypt_good {n size : Nat} {s : State} (hn : n ≤ size) (hp : Memory.Good s.perm size)
    (hd : Memory.Good s.dst (4 * size)) :
    Memory.Good (shuffleEncrypt n s).perm size ∧ Memory.Good (shuffleEncrypt n s).dst (4 * size) := by
  have h1 : (shuffleEncrypt n s).perm = (build n s).perm := by rw [shuffleEncrypt_frame]
  have h2 : (build n s).dst = s.dst := by rw [build_frame]
  exact ⟨by rw [h1]; exact build_good hn hp, gatherPerm_good (by omega) (by rw [h2]; exact hd)⟩

theorem shuffleDecrypt_good {n size : Nat} {s : State} (hn : n ≤ size) (h32 : n ≤ 2 ^ 32) (hp : Memory.Good s.perm size)
    (hv : Memory.Good s.inv size) (hd : Memory.Good s.dst (4 * size)) :
    Memory.Good (shuffleDecrypt n s).perm size ∧ Memory.Good (shuffleDecrypt n s).inv size ∧
      Memory.Good (shuffleDecrypt n s).dst (4 * size) := by
  have h1 : (shuffleDecrypt n s).perm = (build n s).perm := by rw [shuffleDecrypt_frame]
  have h2 : (shuffleDecrypt n s).inv = (invert n (build n s)).inv := by rw [shuffleDecrypt_frame]
  have h3 : (build n s).inv = s.inv := by rw [build_frame]
  have h4 : (invert n (build n s)).dst = s.dst := by rw [invert_frame, build_frame]
  refine ⟨by rw [h1]; exact build_good hn hp, ?_, gatherInv_good (by omega) (by rw [h4]; exact hd)⟩
  rw [h2]
  refine invert_good (fun i hi => ?_) (by rw [h3]; exact hv)
  rw [build_readPerm h32 s hi]
  exact Nat.lt_of_lt_of_le (permutationOf_lt hi) hn

end Sys2Proof.Machine
end

