-- ==== Sys2Proof/Laws/PerInstr.lean ====
section
/-! SUPPORT. Per command, as syntax: it is well formed, its encoding is one of its legal words, and each of its legal words
decodes to it (30_encoding.md R51, R53, R55, R56). -/

namespace Sys2Proof.Laws.EncodingLegal

/-- `encode i` is one of the words R51 lists for `i`, and every one of those decodes to `i`. -/
def Statement (i : Instr) : Prop :=
  i.wf = true ∧ encode i ∈ legalWords i ∧ ∀ w ∈ legalWords i, decode w = .legal i

/-- The three parts of `Statement` as decidable facts. -/
theorem of_all {i : Instr} (h1 : i.wf = true) (h2 : (legalWords i).contains (encode i) = true)
    (h3 : ((legalWords i).all fun w => decide (decode w = .legal i)) = true) : Statement i :=
  ⟨h1, List.contains_iff_mem.1 h2, fun w hw => of_decide_eq_true (List.all_eq_true.1 h3 w hw)⟩

theorem xor (alpha : Bool) : Statement (.xor alpha) := by
  cases alpha <;> exact of_all (by decide) (by decide) (by decide)

theorem addE (alpha : Bool) : Statement (.addE alpha) := by
  cases alpha <;> exact of_all (by decide) (by decide) (by decide)

theorem addD (alpha : Bool) : Statement (.addD alpha) := by
  cases alpha <;> exact of_all (by decide) (by decide) (by decide)

theorem shufE : Statement .shufE := of_all (by decide) (by decide) (by decide)

theorem shufD : Statement .shufD := of_all (by decide) (by decide) (by decide)

theorem ginit : Statement .ginit := of_all (by decide) (by decide) (by decide)

theorem gnext : Statement .gnext := of_all (by decide) (by decide) (by decide)

theorem pbuild : Statement .pbuild := of_all (by decide) (by decide) (by decide)

theorem pinv : Statement .pinv := of_all (by decide) (by decide) (by decide)

end Sys2Proof.Laws.EncodingLegal
end

