-- ==== Sys2Proof/Tests/Slice0.lean ====
section
/-! SUPPORT. The model's own tests: words written out from 30_encoding.md, the vectors of 95_test_vectors.md, and for every
statement with hypotheses a named witness that meets them. -/

namespace Sys2Proof.Tests

open Sys2Proof.Machine

/-- The next state of an outcome, if it is one. -/
def nextOf : Host.Outcome State Fault Refusal → Option State
  | .next s => some s
  | .fault _ => none
  | .refused _ => none

/-- The refusal of an outcome, if it is one. -/
def refusalOfOutcome : Host.Outcome State Fault Refusal → Option Refusal
  | .next _ => none
  | .fault _ => none
  | .refused r => some r

/-- A memory whose first locations hold a list. -/
def mem {α : Type} (l : List α) : Memory α := l.zipIdx.map (fun p => (p.2, p.1))

/-- A block of capacity 8 after reset, the capacity the vectors assume. -/
def idle8 : State := State.resetWith 8

/-- A block of capacity 8 with a seed, a buffer and its length. -/
def loaded (seed : Word) (src : List Byte) : State :=
  { idle8 with seed := seed, buflen := BitVec.ofNat 32 src.length, src := mem src }

/-- A block of capacity 8 with a seed and a permutation length. -/
def lengthSet (seed pn : Word) : State := { idle8 with seed := seed, pn := pn }

/-- A block of capacity 8 with an accepted command still running. -/
def running (w : Word) (events : List Event) : State := { idle8 with cmd := w, status := statusBusy, unread := true, events := events }

/-- Buffer `Q` of 95_test_vectors.md 2.5. -/
def bufferQ : List Byte :=
  [0x11, 0x12, 0x13, 0x14, 0x21, 0x22, 0x23, 0x24, 0x31, 0x32, 0x33, 0x34, 0x41, 0x42, 0x43, 0x44]

/-- A key string of ASCII characters. -/
def asciiKey (l : List Nat) : Key := l.map (BitVec.ofNat 16)

/-! ### Decoding: words written out from R49 and R50, fields `RSV`, `ALPHA`, `DIR`, `OP` -/

theorem test_decode_xor_alpha : decode 0b00000000000000000000000000_1_0_0001#32 = .legal (.xor true) := by decide
theorem test_decode_xor_dir_ignored : decode 0b00000000000000000000000000_0_1_0001#32 = .legal (.xor false) := by decide
theorem test_decode_addE : decode 0b00000000000000000000000000_0_0_0010#32 = .legal (.addE false) := by decide
theorem test_decode_addD_alpha : decode 0b00000000000000000000000000_1_1_0010#32 = .legal (.addD true) := by decide
theorem test_decode_shufE_alpha_ignored : decode 0b00000000000000000000000000_1_0_0011#32 = .legal .shufE := by decide
theorem test_decode_shufD : decode 0b00000000000000000000000000_0_1_0011#32 = .legal .shufD := by decide
theorem test_decode_ginit : decode 0b00000000000000000000000000_0_0_1000#32 = .legal .ginit := by decide
theorem test_decode_gnext : decode 0b00000000000000000000000000_0_0_1001#32 = .legal .gnext := by decide
theorem test_decode_pbuild : decode 0b00000000000000000000000000_0_0_1010#32 = .legal .pbuild := by decide
theorem test_decode_pinv : decode 0b00000000000000000000000000_0_0_1011#32 = .legal .pinv := by decide

/-- V-E1 to V-E5: reserved `OP`, `DIR` on `GINIT`, `ALPHA` on `GNEXT`, a reserved bit at each end. -/
theorem test_decode_illegal :
    [0x00#32, 0x04, 0x07, 0x0C, 0x0F, 0x18, 0x29, 0x41, 0x80000001].map (fun w => (decode w).instr?) =
      List.replicate 9 none := by decide

/-- R56 "The words a mnemonic line writes". -/
theorem test_encode :
    [encode (.xor false), encode (.xor true), encode (.addE false), encode (.addE true), encode (.addD false),
      encode (.addD true), encode .shufE, encode .shufD, encode .ginit, encode .gnext, encode .pbuild, encode .pinv] =
      [0x01, 0x21, 0x02, 0x22, 0x12, 0x32, 0x03, 0x13, 0x08, 0x09, 0x0A, 0x0B] := by decide

/-- The host's two functions on the first word of each row, from the reset state of the open `MAXPIX`. -/
theorem test_table_words :
    [0x01, 0x02, 0x12, 0x03, 0x13, 0x08, 0x09, 0x0A, 0x0B].map (decodeTableWord 32) =
      [some (.xor false), some (.addE false), some (.addD false), some .shufE, some .shufD, some .ginit, some .gnext,
        some .pbuild, some .pinv] := by decide

/-- R151: with the reset values every command is accepted and completes, whatever the open `MAXPIX` is. -/
theorem test_commands_run_from_reset :
    [0x01, 0x02, 0x12, 0x03, 0x13, 0x08, 0x09, 0x0A, 0x0B].map
        (fun w => (nextOf (step (State.reset.withFetchWord 32 w))).map (fun t => (t.cmd, t.status, t.x))) =
      [0x01#32, 0x02, 0x12, 0x03, 0x13, 0x08, 0x09, 0x0A, 0x0B].map (fun w => some (w, 0x00000002#32, 0#32)) := by decide

/-! ### Well-formedness refuses ill-formed terms -/

theorem test_wf_refuses_WR_CMD : ScriptLine.wf (.wr .cmd 1) = false := by decide
theorem test_wf_refuses_WR_STATUS : ScriptLine.wf (.wr .status 1) = false := by decide
theorem test_wf_refuses_WR_X : ScriptLine.wf (.wr .x 1) = false := by decide
theorem test_wf_refuses_WR_CAP : ScriptLine.wf (.wr .cap 1) = false := by decide
theorem test_wf_refuses_LDB_PERM : ScriptLine.wf (.ldb .perm 0 [1]) = false := by decide
theorem test_wf_refuses_LDB_INV : ScriptLine.wf (.ldb .inv 0 [1]) = false := by decide
theorem test_wf_refuses_LDB_REG : ScriptLine.wf (.ldb .reg 0 [1]) = false := by decide
theorem test_wf_refuses_LDE_SRC : ScriptLine.wf (.lde .src 0 [1]) = false := by decide
theorem test_wf_refuses_LDE_DST : ScriptLine.wf (.lde .dst 0 [1]) = false := by decide
theorem test_wf_refuses_LDE_REG : ScriptLine.wf (.lde .reg 0 [1]) = false := by decide
theorem test_wf_refuses_capacity_0 : ¬ legalCapacity 0 := by decide
theorem test_wf_refuses_capacity_above : ¬ legalCapacity (2 ^ 30) := by decide

/-! ### One command each, from 95_test_vectors.md -/

/-- V-B1, V-B2 (the second pixel wraps no bit, the alpha byte of each is kept or transformed). -/
theorem test_xor_VB1 :
    (nextOf (exec (.xor false) (loaded 5 [10, 20, 30, 255, 0, 255, 128, 7]))).map (fun t => (t.dst, t.status, t.x)) =
      some (mem [15, 17, 27, 255, 5, 250, 133, 7], 2, 0) := by decide
theorem test_xor_alpha_VB2 :
    (nextOf (exec (.xor true) (loaded 5 [10, 20, 30, 255, 0, 255, 128, 7]))).map (fun t => (t.dst, t.status)) =
      some (mem [15, 17, 27, 250, 5, 250, 133, 2], 2) := by decide

/-- V-B4, V-B3: `255 + 10 = 265 -> 9`. -/
theorem test_addE_VB4 :
    (nextOf (exec (.addE false) (loaded 10 [10, 20, 30, 255, 250, 251, 0, 128]))).map (fun t => (t.dst, t.status)) =
      some (mem [20, 30, 40, 255, 4, 5, 10, 128], 2) := by decide
theorem test_addE_alpha_VB3 :
    (nextOf (exec (.addE true) (loaded 10 [10, 20, 30, 255, 250, 251, 0, 128]))).map (fun t => (t.dst, t.status)) =
      some (mem [20, 30, 40, 9, 4, 5, 10, 138], 2) := by decide

/-- V-B6: `0 - 200 + 256 = 56`; R93's example with alpha off. -/
theorem test_addD_alpha_VB6 :
    (nextOf (exec (.addD true) (loaded 200 [0, 1, 127, 128, 255, 254, 200, 3]))).map (fun t => (t.dst, t.status)) =
      some (mem [56, 57, 183, 184, 55, 54, 0, 59], 2) := by decide
theorem test_addD_R93 :
    (nextOf (exec (.addD false) (loaded 5 [15, 25, 35, 255]))).map (fun t => (t.dst, t.status)) =
      some (mem [10, 20, 30, 255], 2) := by decide

/-- V-S1 and V-S3. -/
theorem test_shufE_VS1 :
    (nextOf (exec .shufE (loaded 42 bufferQ))).map (fun t => (t.perm, t.dst, t.x, t.status)) =
      some (mem [3, 2, 1, 0],
        mem [0x41, 0x42, 0x43, 0x44, 0x31, 0x32, 0x33, 0x34, 0x21, 0x22, 0x23, 0x24, 0x11, 0x12, 0x13, 0x14],
        0x1C67AF03, 2) := by decide
theorem test_shufE_zero_seed_VS3 :
    (nextOf (exec .shufE (loaded 0 bufferQ))).map (fun t => (t.perm, t.dst, t.x, t.inv)) =
      some (mem [1, 2, 3, 0],
        mem [0x21, 0x22, 0x23, 0x24, 0x31, 0x32, 0x33, 0x34, 0x41, 0x42, 0x43, 0x44, 0x11, 0x12, 0x13, 0x14], 0, []) := by
  decide

/-- V-S8: decrypting first tells the permutation from its inverse. -/
theorem test_shufD_VS8 :
    (nextOf (exec .shufD (loaded 1 bufferQ))).map (fun t => (t.perm, t.inv, t.dst, t.x)) =
      some (mem [0, 2, 3, 1], mem [0, 3, 1, 2],
        mem [0x11, 0x12, 0x13, 0x14, 0x41, 0x42, 0x43, 0x44, 0x21, 0x22, 0x23, 0x24, 0x31, 0x32, 0x33, 0x34],
        0x9DCCA8C5) := by decide
/-- V-S9: one pixel. -/
theorem test_shufD_one_pixel_VS9 :
    (nextOf (exec .shufD (loaded 7 [1, 2, 3, 4]))).map (fun t => (t.perm, t.inv, t.dst, t.x)) =
      some (mem [0], mem [0], mem [1, 2, 3, 4], 7) := by decide

/-- R73's example. -/
theorem test_ginit_R73 :
    (nextOf (exec .ginit { idle8 with seed := 0x2A, x := 9 })).map (fun t => (t.x, t.status)) = some (0x2A, 2) := by decide

/-- V-G6 (a top bit must not come back down) and V-G5. -/
theorem test_gnext_VG6 :
    (nextOf (exec .gnext { idle8 with x := 0x80000000 })).map (fun t => (t.x, t.status)) = some (0x80084000, 2) := by decide
theorem test_gnext_VG5 :
    (nextOf (exec .gnext { idle8 with x := 0x811C9DC5 })).map (·.x) = some 0x4622A677 := by decide

/-- V-P14 and V-P1. -/
theorem test_pbuild_VP14 :
    (nextOf (exec .pbuild (lengthSet 1 8))).map (fun t => (t.perm, t.x, t.inv, t.status)) =
      some (mem [2, 4, 5, 7, 0, 6, 3, 1], 0x25B2331A, [], 2) := by decide
theorem test_pbuild_empty_VP1 :
    (nextOf (exec .pbuild (lengthSet 42 0))).map (fun t => (t.perm, t.x, t.status)) = some ([], 0x2A, 2) := by decide

/-- V-P20; V-P22 (a repeated entry, `INV` holding 9 before). -/
theorem test_pinv_VP20 :
    (nextOf (exec .pinv { lengthSet 0 5 with perm := mem [1, 4, 3, 0, 2] })).map (fun t => (t.inv, t.x, t.status)) =
      some (mem [3, 0, 4, 2, 1], 0, 2) := by decide
theorem test_pinv_repeat_VP22 :
    (nextOf (exec .pinv { lengthSet 0 3 with perm := mem [1, 1, 0], inv := mem [9, 9, 9] })).map (·.inv) =
      some (mem [2, 1, 9]) := by decide

/-! ### Rejections (V-E6 to V-E13) -/

theorem test_reject_len4_VE6 : (nextOf (exec (.xor false) { idle8 with buflen := 6 })).map (·.status) = some 0x204 := by decide
theorem test_reject_cap_VE8 : (nextOf (exec .shufE { idle8 with buflen := 36 })).map (·.status) = some 0x304 := by decide
theorem test_reject_order_VE9 : (nextOf (exec .shufE { idle8 with buflen := 38 })).map (·.status) = some 0x204 := by decide
theorem test_reject_pinv_cap_VE10 :
    (nextOf (exec .pinv { lengthSet 0 9 with perm := mem [99] })).map (·.status) = some 0x304 := by decide
theorem test_reject_perm_VE11 :
    (nextOf (exec .pinv { lengthSet 0 3 with perm := mem [0, 5, 1], inv := mem [7] })).map (fun t => (t.status, t.inv)) =
      some (0x404, mem [7]) := by decide

/-! ### The host's side -/

/-- R32: a word write, then byte and word reads. -/
theorem test_word_view :
    (transact (.wr32 .src 4 0x44332211) true idle8).bind (fun _ s => fetchBytes .src 4 4 s) =
      .returned [0x11, 0x22, 0x33, 0x44]
        { idle8 with src := [(4, 0x11), (5, 0x22), (6, 0x33), (7, 0x44)]
                     replies := [.byte 0x11, .byte 0x22, .byte 0x33, .byte 0x44] } := by decide

/-- U2, U5, U6. -/
theorem test_refused_while_busy :
    refusalOfOutcome (step (running 1 [.host (.rd32 .reg 0x14) true])) = some .hostWhileBusy := by decide
theorem test_refused_misaligned :
    refusalOfOutcome (step { idle8 with events := [.host (.rd32 .src 2) true] }) = some .notProvided := by decide
theorem test_refused_16_bit :
    refusalOfOutcome (step { idle8 with events := [.host (.wr16 .src 0 1) true] }) = some .notProvided := by decide
theorem test_refused_reserved :
    refusalOfOutcome (step { idle8 with events := [.host (.rd32 .reg 0xFC) true] }) = some .reservedRegister := by decide

/-- P1, first part: a script from reset, the block busy for one read of `STATUS`. -/
theorem test_script_P1 :
    (match runScript 1 [.ldb .src 0 [10, 20, 30, 255, 0, 255, 128, 7], .wr .buflen 8, .wr .seed 5, .command (.xor false),
        .wait] idle8 with
      | .returned _ t => some (t.dst, t.status, t.replies)
      | _ => none) =
      some (mem [15, 17, 27, 255, 5, 250, 133, 7], 2, [.word 1, .word 2]) := by decide

/-- R56: `WAIT` on a busy block goes on until a read returns `BUSY = 0`, for delay 0 too. -/
theorem test_wait_busy_delay_0 :
    waitDone 0 (running 9 []) = .returned 2 { idle8 with cmd := 9, status := 2, replies := [.word 1, .word 2] } := by decide

/-- R153: the command has completed, but no read of `STATUS` has returned `BUSY = 0`: `RD X` is refused; after one it returns. -/
theorem test_refused_before_poll :
    refusalOfOutcome (Host.Core.run Sys2Proof.core 2
      { idle8 with events := [.host (.wr32 .reg 0x00 9) true, .host (.rd32 .reg 0x14) true] }) = some .hostWhileBusy := by decide
theorem test_allowed_after_poll :
    (nextOf (Host.Core.run Sys2Proof.core 3 { idle8 with
      events := [.host (.wr32 .reg 0x00 9) true, .host (.rd32 .reg 0x04) true, .host (.rd32 .reg 0x14) true] })).map
        (fun t => (t.replies, t.unread)) = some ([.word 2, .word 0], false) := by decide

/-- R119, with V-B4 (`ADD.E`, key 10), V-B6 (`ADD.D`, key 200, alpha on) and V-S8 (`SHUF.D`, seed 1). -/
theorem test_applyByteOp_VB4 :
    (match applyByteOp 1 [10, 20, 30, 255, 250, 251, 0, 128] .add .encrypt 10 false idle8 with
      | .returned out t => some (out, t.cmd)
      | _ => none) = some ([20, 30, 40, 255, 4, 5, 10, 128], 0x02) := by decide
theorem test_applyByteOp_VB6 :
    (match applyByteOp 0 [0, 1, 127, 128, 255, 254, 200, 3] .add .decrypt 200 true idle8 with
      | .returned out t => some (out, t.cmd)
      | _ => none) = some ([56, 57, 183, 184, 55, 54, 0, 59], 0x32) := by decide
theorem test_applyShuffle_VS8 :
    (match applyShuffle 2 bufferQ .decrypt 1 idle8 with
      | .returned out t => some (out, t.cmd)
      | _ => none) =
      some ([0x11, 0x12, 0x13, 0x14, 0x41, 0x42, 0x43, 0x44, 0x21, 0x22, 0x23, 0x24, 0x31, 0x32, 0x33, 0x34], 0x13) := by decide

/-- R119, R138: 36 and 38 bytes on 8 pixels: `E_CAP`, and `E_LEN4` before it. R120: 9 entries. -/
theorem test_applyShuffle_over_capacity :
    (match applyShuffle 0 (List.replicate 36 7) .encrypt 1 idle8 with
      | .invalid c t => some (c, t.status, t.buflen, t.src)
      | _ => none) = some (.tooLarge, 0x304, 36, mem (List.replicate 32 7)) := by decide
theorem test_applyByteOp_length :
    (match applyByteOp 0 (List.replicate 38 7) .xor .encrypt 1 true idle8 with
      | .invalid c t => some (c, t.status)
      | _ => none) = some (.lengthNotMultipleOf4, 0x204) := by decide
theorem test_invertPermutation_over_capacity :
    (match invertPermutation 0 [0, 1, 2, 3, 4, 5, 6, 7, 8] idle8 with
      | .invalid c t => some (c, t.status, t.pn, t.inv)
      | _ => none) = some (.tooLarge, 0x304, 9, []) := by decide

/-- V-D4, V-D9, V-D10, V-D18, V-D19, V-D28. -/
theorem test_derive_key : deriveSeed (asciiKey [0x6B, 0x65, 0x79]) = 0x6815C86C := by decide
theorem test_derive_minus_42 : deriveSeed (asciiKey [0x2D, 0x34, 0x32]) = 42 := by decide
theorem test_derive_42abc : deriveSeed (asciiKey [0x34, 0x32, 0x61, 0x62, 0x63]) = 0x01FD345D := by decide
theorem test_derive_beyond_64_bits :
    deriveSeed (asciiKey [0x31, 0x38, 0x34, 0x34, 0x36, 0x37, 0x34, 0x34, 0x30, 0x37, 0x33, 0x37, 0x30, 0x39, 0x35, 0x35,
      0x31, 0x36, 0x32, 0x31]) = 5 := by decide
theorem test_derive_bare_minus : deriveSeed (asciiKey [0x2D]) = 0x280C9438 := by decide
theorem test_derive_surrogates : deriveSeed [0xD83D, 0xDE00] = 0xCB31C4B8 := by decide

/-- P6: the shuffle request of key "key". -/
theorem test_transform_P6 :
    (match transform 0 bufferQ ⟨.shuffle, .encrypt, asciiKey [0x6B, 0x65, 0x79], true⟩ idle8 with
      | .returned out t => some (out, t.perm, t.x, t.cmd)
      | _ => none) =
      some ([0x21, 0x22, 0x23, 0x24, 0x41, 0x42, 0x43, 0x44, 0x31, 0x32, 0x33, 0x34, 0x11, 0x12, 0x13, 0x14],
        mem [1, 3, 2, 0], 0x65513482, 3) := by decide

/-! ### Witnesses: concrete states that meet the hypotheses of each statement -/

theorem inv_idle8 : idle8.Inv where
  capacity := by decide
  status := by decide
  srcWf := by decide
  dstWf := by decide
  permWf := by decide
  invWf := by decide
  srcWithin := by decide
  dstWithin := by decide
  permWithin := by decide
  invWithin := by decide
  command := fun h => absurd h (by decide)
  waiting := fun h => absurd h (by decide)

/-- A running `XOR`, with any events, is a legal state. -/
theorem inv_running (events : List Event) : (running 1 events).Inv where
  capacity := by show legalCapacity 8; decide
  status := .inr (.inl rfl)
  srcWf := List.Pairwise.nil
  dstWf := List.Pairwise.nil
  permWf := List.Pairwise.nil
  invWf := List.Pairwise.nil
  srcWithin := fun _ h => nomatch h
  dstWithin := fun _ h => nomatch h
  permWithin := fun _ h => nomatch h
  invWithin := fun _ h => nomatch h
  command := fun _ => ⟨.xor false, (by decide : decode 1#32 = .legal (.xor false)), (by decide : check (.xor false) idle8 = none)⟩
  waiting := fun _ => rfl

theorem test_witness_DecodeEncodeAgree : Instr.wf (.xor true) = true ∧ decode 0x31 = .legal (.xor true) := by decide

theorem test_witness_ResetValues : legalCapacity 1 ∧ legalCapacity (2 ^ 30 - 1) := by decide

theorem test_witness_ResetEventFromAnyState : (running 1 [.reset]).events = .reset :: [] := rfl

theorem test_witness_StepRunsDecodedCommand :
    let s : State := { idle8 with events := [.host (.wr32 .reg 0x00 0x31) true] }
    s.held = false ∧ s.events = .host (.wr32 .reg 0x00 0x31) true :: [] ∧ decode 0x31 = .legal (.xor true) := by decide

theorem test_witness_PlacedWordRuns : decodeTableWord 32 0x23 = some .shufE ∧ decodeTableWord 8 0x0B = some .pinv := by decide

theorem test_witness_IllegalWordRejected :
    let s : State := { idle8 with events := [.host (.wr32 .reg 0x00 0x18) false] }
    s.held = false ∧ s.events = .host (.wr32 .reg 0x00 0x18) false :: [] ∧
      0x18#32 ∉ [0x01#32, 0x11#32, 0x21#32, 0x31#32, 0x02#32, 0x22#32, 0x12#32, 0x32#32, 0x03#32, 0x23#32, 0x13#32, 0x33#32,
        0x08#32, 0x09#32, 0x0A#32, 0x0B#32] := by
  refine ⟨by decide, rfl, by simp⟩

theorem test_witness_LegalIssueIsBusyOrRejected_accepted :
    let s : State := { idle8 with buflen := 32, events := [.host (.wr32 .reg 0x00 0x03) false] }
    s.held = false ∧ s.events = .host (.wr32 .reg 0x00 0x03) false :: [] ∧ decode 0x03 = .legal .shufE ∧
      check .shufE s = none := by decide

/-- Each of the three causes a legal word meets. -/
theorem test_witness_LegalIssueIsBusyOrRejected_rejected :
    [(0x01#32, Instr.xor false, ErrorCause.eLen4, { idle8 with buflen := 6 }), (0x0B, .pinv, .eCap, lengthSet 0 9),
      (0x0B, .pinv, .ePerm, { lengthSet 0 1 with perm := mem [1] })].map
        (fun p => (p.2.2.2.held, decide (decode p.1 = .legal p.2.1), decide (check p.2.1 p.2.2.2 = some p.2.2.1))) =
      List.replicate 3 (false, true, true) := by decide

theorem test_witness_BlockTurnRunsCommand_busy :
    (running 1 []).events = [] ∧ (running 1 []).busy = true ∧ decode (running 1 []).cmd = .legal (.xor false) := by decide
theorem test_witness_BlockTurnRunsCommand_idle : idle8.events = [] ∧ idle8.busy = false := by decide

theorem test_witness_DelayedCommandEqualsPrompt :
    let s : State := { idle8 with events := [.host (.wr32 .reg 0x00 0x09) false, .host (.rd32 .reg 0x04) false,
      .host (.rd32 .reg 0x04) true, .reset] }
    s.held = false ∧ decode 0x09 = .legal .gnext ∧ check .gnext s = none ∧
      s.events = .host (.wr32 .reg 0x00 0x09) false ::
        (List.replicate 1 (.host (.rd32 .reg 0x04) false) ++ .host (.rd32 .reg 0x04) true :: [.reset]) := by decide

theorem test_witness_StepKeepsInvariant : (running 1 []).Inv ∧ (nextOf (step (running 1 []))).isSome = true :=
  ⟨inv_running [], by decide⟩

theorem test_witness_LegalStateNeverFaults : (running 1 []).Inv := inv_running []

theorem test_witness_OnlyHostMovesRefused :
    (running 1 [.host (.rd8 .src 0) true]).Inv ∧
      refusalOfOutcome (step (running 1 [.host (.rd8 .src 0) true])) = some .hostWhileBusy := ⟨inv_running _, by decide⟩

theorem test_witness_IssueOverwritesStatus :
    let s : State := { idle8 with events := [.host (.wr32 .reg 0x00 0x0A) false] }
    s.held = false ∧ statusBusyBit (statusRejected .ePerm) = false ∧ s.events = .host (.wr32 .reg 0x00 0x0A) false :: [] := by
  decide

theorem test_witness_LengthNotMultipleOf4Rejected :
    Instr.shufD ∈ [Instr.xor true, .addE true, .addD true, .shufE, .shufD] ∧
      State.buflen { idle8 with buflen := 0xFFFFFFFF } = 0xFFFFFFFF ∧ (0xFFFFFFFF#32).toNat % 4 ≠ 0 := by decide

/-- One pixel over the capacity; one entry over. -/
theorem test_witness_OverCapacityRejected :
    (let s : State := { idle8 with buflen := 36 }
     Instr.addD true ∈ [Instr.xor true, .addE true, .addD true, .shufE, .shufD] ∧
      s.buflen.toNat % 4 = 0 ∧ s.buflen.toNat / 4 > s.cap.toNat) ∧
    (Instr.pinv ∈ [Instr.pbuild, .pinv] ∧ (lengthSet 0 9).pn.toNat > (lengthSet 0 9).cap.toNat) := by decide

/-- The last entry equal to `PN`; every entry in range, one repeated. -/
theorem test_witness_EntryOutOfRangeRejected :
    (let s : State := { lengthSet 0 8 with perm := mem [0, 1, 2, 3, 4, 5, 6, 8] }
     s.pn.toNat ≤ s.cap.toNat ∧ 7 < s.pn.toNat ∧ s.pn.toNat ≤ (s.readPerm 7).toNat) ∧
    (let s : State := { lengthSet 0 3 with perm := mem [2, 2, 0] }
     s.pn.toNat ≤ s.cap.toNat ∧ ∀ i < s.pn.toNat, (s.readPerm i).toNat < s.pn.toNat) := by decide

theorem test_witness_ZeroSeedStaysZero : idle8.seed = 0 := by decide

theorem test_witness_StepFunctionBijective : xs32 0 = 0 ∧ (1#32 : Word) ≠ 0 := by decide

/-- `PN` at the capacity (`PbuildLeavesPermutation`, `BuildLeavesBijection`, `PinvAfterPbuildIsInverse`). -/
theorem test_witness_PbuildLeavesPermutation :
    (lengthSet 1 8).pn.toNat ≤ (lengthSet 1 8).cap.toNat ∧ 7 < (lengthSet 1 8).pn.toNat := by decide

/-- The clauses of `DegenerateLengths`: lengths 0, 1 and 2, the draw odd and even (V-P1 to V-P4). -/
theorem test_witness_DegenerateLengths :
    ((lengthSet 42 0).pn.toNat = 0 ∧ (lengthSet 42 1).pn.toNat = 1 ∧ (lengthSet 42 2).pn.toNat = 2) ∧
      (xs32 (lengthSet 1 2).seed).toNat % 2 = 1 ∧ (xs32 (lengthSet 42 2).seed).toNat % 2 = 0 := by decide

theorem test_witness_ZeroSeedRotates :
    let s : State := { lengthSet 0 8 with buflen := 32 }
    s.seed = 0 ∧ s.pn.toNat ≤ s.cap.toNat ∧ s.transformReady ∧ 7 < s.pixelCount := by decide

/-- `PINV` on a repeated entry (V-P22) and on a bijection (V-P20). -/
theorem test_witness_PinvLeavesLastIndex :
    let s : State := { lengthSet 0 3 with perm := mem [1, 1, 0] }
    s.pn.toNat ≤ s.cap.toNat ∧ (∀ i < s.pn.toNat, (s.readPerm i).toNat < s.pn.toNat) ∧
      (∀ j, 1 < j → j < s.pn.toNat → s.readPerm j ≠ s.readPerm 1) ∧
      ∀ i < s.pn.toNat, (s.readPerm i).toNat ≠ 2 := by
  refine ⟨by decide, by decide, fun j h1 h2 => ?_, by decide⟩
  have : j = 2 := by have h3 : j < 3 := h2; omega
  subst this
  decide

theorem test_witness_PinvInvertsBijection :
    let s : State := { lengthSet 0 5 with perm := mem [1, 4, 3, 0, 2] }
    s.pn.toNat ≤ s.cap.toNat ∧ (∀ i < s.pn.toNat, (s.readPerm i).toNat < s.pn.toNat) ∧
      (∀ i < s.pn.toNat, ∀ j < s.pn.toNat, s.readPerm i = s.readPerm j → i = j) ∧
      [4, 3, 2, 1, 0].Perm (List.range s.pn.toNat) := by decide

/-- Exactly `MAXPIX` pixels, and none (`XorCommandResult`, `AddEncryptCommandResult`, `AddDecryptCommandResult`,
`ShuffleEncryptResult`, `ShuffleDecryptResult`). -/
theorem test_witness_transformReady :
    State.transformReady { idle8 with buflen := 32 } ∧ State.transformReady { idle8 with buflen := 0 } := by decide

theorem test_witness_ByteRoundTrip :
    (Instr.addD true, Instr.addE true) ∈ [(Instr.xor true, Instr.xor true), (.addE true, .addD true), (.addD true, .addE true)] ∧
      (loaded 5 [1, 2, 3, 4]).transformReady ∧ (0xABCDEF05#32).extractLsb' 0 8 = (loaded 5 [1, 2, 3, 4]).seed.extractLsb' 0 8 := by
  decide

theorem test_witness_ZeroKeyByteCopies :
    Instr.addD false ∈ [Instr.xor false, .addE false, .addD false] ∧ (loaded 256 [1, 2, 3, 4]).transformReady ∧
      (loaded 256 [1, 2, 3, 4]).seed.extractLsb' 0 8 = 0#8 := by decide

theorem test_witness_ShuffleRoundTrip :
    (Instr.shufD, Instr.shufE) ∈ [(Instr.shufE, Instr.shufD), (.shufD, .shufE)] ∧ (loaded 42 bufferQ).transformReady := by
  decide

theorem test_witness_ShuffleRearrangesPixels :
    Instr.shufD ∈ [Instr.shufE, .shufD] ∧ (loaded 42 bufferQ).transformReady := by decide

/-- Two states that differ in everything but the operands. -/
theorem test_witness_TransformDependsOnOperandsOnly :
    let s₁ : State := loaded 42 bufferQ
    let s₂ : State := { s₁ with x := 7, pn := 3, perm := mem [5], inv := mem [6], dst := mem [9], status := statusDone, cmd := 1 }
    Instr.shufE ∈ [Instr.xor true, .addE true, .addD true, .shufE, .shufD] ∧ s₁.seed = s₂.seed ∧ s₁.buflen = s₂.buflen ∧
      s₁.cap = s₂.cap ∧ (∀ a < s₁.buflen.toNat, s₁.readSrc a = s₂.readSrc a) ∧ s₁.transformReady ∧ s₁.dst ≠ s₂.dst := by decide

/-- While the block is busy, and after completion before the read. -/
theorem test_witness_HostRefusedUntilBusyReadZero :
    (running 1 [.host (.wr32 .reg 0x00 1) true]).busy = true ∧
      State.unread { idle8 with status := statusDone, unread := true, events := [.host (.rd32 .reg 0x14) true] } = true ∧
      Transaction.wr32 .reg 0x00 1 ≠ .rd32 .reg 0x04 ∧ Transaction.rd32 .reg 0x14 ≠ .rd32 .reg 0x04 ∧
      (running 1 [.host (.wr32 .reg 0x00 1) true]).events = .host (.wr32 .reg 0x00 1) true :: [] := by decide

/-- Both clauses: busy, and done with the read owed. -/
theorem test_witness_StatusReadAlwaysAllowed :
    (running 1 [.host (.rd32 .reg 0x04) false]).events = .host (.rd32 .reg 0x04) false :: [] ∧
      (running 1 [.host (.rd32 .reg 0x04) false]).busy = true ∧
      State.busy { idle8 with status := statusDone, unread := true, events := [.host (.rd32 .reg 0x04) false] } = false := by decide

/-- A `WAIT` that returns; a busy block; one that is not; a legal one. -/
theorem test_witness_WaitEndsOnBusyZero :
    (waitDone 3 idle8 = .returned 0 { idle8 with replies := [.word 0] }) ∧ (running 1 []).busy = true ∧
      decode (running 1 []).cmd = .legal (.xor false) ∧ idle8.busy = false ∧ idle8.Inv :=
  ⟨by decide, by decide, by decide, by decide, inv_idle8⟩

/-- The last allowed access of each kind and the first that is not. -/
theorem test_witness_ProvidedTransactions :
    [Transaction.rd32 .reg 0x18, .rd32 .src 28, .wr8 .dst 31 1, .rde .perm 7, .wre .inv 7 1].map (provided 8) =
      List.replicate 5 true ∧
    [Transaction.rd32 .reg 0x1C, .rd32 .src 32, .wr8 .dst 32 1, .rde .perm 8, .wre .inv 8 1, .rd8 .reg 0, .rd16 .src 0].map
      (provided 8) = List.replicate 7 false := by decide

theorem test_witness_ReservedRegistersRefused :
    let s : State := { idle8 with events := [.host (.wr32 .reg 0x1C 1) true] }
    s.held = false ∧ Transaction.wr32 .reg 0x1C 1 ∈ [Transaction.rd32 .reg 0x1C, .wr32 .reg 0x1C 1] ∧ 0x1C % 4 = 0 ∧
      s.events = .host (.wr32 .reg 0x1C 1) true :: [] := by decide

theorem test_witness_RegisterReadsReturnValue :
    let s : State := { idle8 with events := [.host (.rd32 .reg 0x18) true] }
    s.held = false ∧ (0x18, 8#32) ∈ [(0x00, s.cmd), (0x04, s.status), (0x08, s.seed), (0x0C, s.buflen), (0x10, s.pn),
      (0x14, s.x), (0x18, s.cap)] ∧ s.events = .host (.rd32 .reg 0x18) true :: [] := by decide

/-- One state for each clause of `RegisterWritesStore`. -/
theorem test_witness_RegisterWritesStore :
    [0x08, 0x0C, 0x10, 0x04, 0x14, 0x18].map (fun a =>
      let s : State := { idle8 with events := [.host (.wr32 .reg a 7) true] }
      (s.held, decide (s.events = .host (.wr32 .reg a 7) true :: []))) = List.replicate 6 (false, true) := by decide

/-- The last byte and the last entry, one state for each clause of `MemoryAccessesStoreAndReturn`. -/
theorem test_witness_MemoryAccessesStoreAndReturn :
    31 < 4 * idle8.cap.toNat ∧ 7 < idle8.cap.toNat ∧
    [Transaction.rd8 .src 31, .rd8 .dst 31, .wr8 .src 31 1, .wr8 .dst 31 1, .rde .perm 7, .rde .inv 7, .wre .perm 7 1,
      .wre .inv 7 1].map (fun t =>
        let s : State := { idle8 with events := [.host t true] }
        (s.held, decide (s.events = .host t true :: []))) = List.replicate 8 (false, true) := by decide

/-- The last word, one state for each clause of `WordViewLittleEndian`. -/
theorem test_witness_WordViewLittleEndian :
    28 % 4 = 0 ∧ 28 + 3 < 4 * idle8.cap.toNat ∧
    [Transaction.wr32 .src 28 1, .wr32 .dst 28 1, .rd32 .src 28, .rd32 .dst 28].map (fun t =>
        let s : State := { idle8 with events := [.host t true] }
        (s.held, decide (s.events = .host t true :: []))) = List.replicate 4 (false, true) := by decide

/-- The digits "09", at both ends of the digit range. -/
theorem test_witness_NumericSeedIsDecimalValue :
    let ds : List CodeUnit := [0x30, 0x39]
    ds ≠ [] ∧ ∀ c ∈ ds, 0x0030 ≤ c.toNat ∧ c.toNat ≤ 0x0039 := by
  refine ⟨by decide, fun c hc => ?_⟩
  simp only [List.mem_cons, List.not_mem_nil, or_false] at hc
  rcases hc with rfl | rfl <;> decide

/-- The code units next to the digits make a key that is not numeric. -/
theorem test_witness_HashSeedAbsorbsCodeUnits :
    isNumeric [0x34, 0x2F] = false ∧ isNumeric [0x34, 0x3A] = false ∧ isNumeric [0x2D] = false := by decide

/-- A request for each clause of `DriverChecksInOrder`: c1, c2, c3 (after c1 and c2 pass), c4 (36 bytes on 8 pixels). -/
theorem test_witness_DriverChecksInOrder :
    (∃ v, (Request.mk (.unsupported 3) .encrypt [] false).operation = .unsupported v) ∧
    ((Request.mk .shuffle .encrypt [] false).operation = .shuffle ∧ (Request.mk .shuffle .encrypt [] false).key = []) ∧
    ((∀ v, (Request.mk .xor .encrypt [] false).operation ≠ .unsupported v) ∧
      ((Request.mk .xor .encrypt [] false).operation = .shuffle → (Request.mk .xor .encrypt [] false).key ≠ []) ∧
      [1#8, 2, 3, 4, 5, 6].length % 4 ≠ 0) ∧
    ((List.replicate 36 0#8).length % 4 = 0 ∧ idle8.held = false ∧ (List.replicate 36 0#8).length / 4 > idle8.cap.toNat) :=
  ⟨⟨3, rfl⟩, ⟨rfl, rfl⟩, ⟨(fun _ h => nomatch h), (fun h => nomatch h), by decide⟩, by decide⟩

theorem test_witness_TransformReturnsReference :
    idle8.Inv ∧ idle8.held = false ∧ (∀ v, (Request.mk .shuffle .decrypt [0x35] true).operation ≠ .unsupported v) ∧
      ((Request.mk .shuffle .decrypt [0x35] true).operation = .shuffle → (Request.mk .shuffle .decrypt [0x35] true).key ≠ []) ∧
      bufferQ.length % 4 = 0 ∧ bufferQ.length / 4 ≤ idle8.cap.toNat :=
  ⟨inv_idle8, by decide, (fun _ h => nomatch h), (fun _ h => nomatch h), by decide, by decide⟩

theorem test_witness_DecryptAfterEncrypt :
    idle8.Inv ∧ idle8.held = false ∧ Operation.shuffle ∈ [Operation.xor, .add, .shuffle] ∧
      (Operation.shuffle = .shuffle → ([0x35] : Key) ≠ []) ∧ bufferQ.length % 4 = 0 ∧ bufferQ.length / 4 ≤ idle8.cap.toNat :=
  ⟨inv_idle8, by decide, by decide, (fun _ h => nomatch h), by decide, by decide⟩

theorem test_witness_UnitFunctionsReturn :
    idle8.Inv ∧ idle8.held = false ∧ bufferQ.length % 4 = 0 ∧ bufferQ.length / 4 ≤ idle8.cap.toNat ∧
      Operation.add ∈ [Operation.xor, .add] := ⟨inv_idle8, by decide, by decide, by decide, by decide⟩

/-- One byte over a pixel and over the capacity too; one pixel over the capacity. -/
theorem test_witness_LibraryRejectionsReported_buffer :
    idle8.Inv ∧ idle8.held = false ∧ Operation.add ∈ [Operation.xor, .add] ∧ (List.replicate 37 0#8).length % 4 ≠ 0 ∧
      (List.replicate 36 0#8).length % 4 = 0 ∧ (List.replicate 36 0#8).length / 4 > idle8.cap.toNat :=
  ⟨inv_idle8, by decide, by decide, by decide, by decide, by decide⟩

/-- `PN` at the capacity; a permutation that is not its own inverse (V-P10). -/
theorem test_witness_LibraryFunctionsReturn :
    idle8.Inv ∧ idle8.held = false ∧ (8#32).toNat ≤ idle8.cap.toNat ∧ ([1, 4, 3, 0, 2] : List Word).length ≤ idle8.cap.toNat ∧
      (([1, 4, 3, 0, 2] : List Word).map BitVec.toNat).Perm (List.range ([1, 4, 3, 0, 2] : List Word).length) :=
  ⟨inv_idle8, by decide, by decide, by decide, by decide⟩

/-- One entry over the capacity, by `n` and by the sequence; the last entry equal to the length. -/
theorem test_witness_LibraryRejectionsReported :
    idle8.Inv ∧ idle8.held = false ∧ (9#32).toNat > idle8.cap.toNat ∧ (List.replicate 9 0#32).length > idle8.cap.toNat ∧
      ([0, 2] : List Word).length ≤ idle8.cap.toNat ∧ ∃ e ∈ ([0, 2] : List Word), ([0, 2] : List Word).length ≤ e.toNat :=
  ⟨inv_idle8, by decide, by decide, by decide, by decide, 2, by simp, by decide⟩

end Sys2Proof.Tests
end

section
/-! The legal words (30_encoding.md R51): `decode` and `legalWords` say the same, so R51's list is the list of the words
`decode` accepts. A word above six bits is illegal, so only 64 words need the decoder run. -/

namespace Sys2Proof

@[simp] theorem Decoded.instr?_eq_some_iff {d : Decoded} {i : Instr} : d.instr? = some i ↔ d = .legal i := by
  cases d <;> simp [Decoded.instr?]

/-- R51 for each command: it is well formed, its encoding is one of its legal words, and each of these decodes to it. -/
theorem encodingLegal : ∀ i : Instr, Laws.EncodingLegal.Statement i
  | .xor alpha => Laws.EncodingLegal.xor alpha
  | .addE alpha => Laws.EncodingLegal.addE alpha
  | .addD alpha => Laws.EncodingLegal.addD alpha
  | .shufE => Laws.EncodingLegal.shufE
  | .shufD => Laws.EncodingLegal.shufD
  | .ginit => Laws.EncodingLegal.ginit
  | .gnext => Laws.EncodingLegal.gnext
  | .pbuild => Laws.EncodingLegal.pbuild
  | .pinv => Laws.EncodingLegal.pinv

theorem decode_of_mem_legalWords {w : Word} {i : Instr} (h : w ∈ legalWords i) : decode w = .legal i := by
  obtain ⟨-, -, hdecode⟩ := encodingLegal i
  exact hdecode w h

/-- The decoder run on the 64 words whose `RSV` is 0. -/
theorem sixBit_mem_legalWords : ∀ n < 64, ∀ i ∈ (decode (BitVec.ofNat 32 n)).instr?, BitVec.ofNat 32 n ∈ legalWords i := by
  decide

theorem mem_legalWords_of_decode {w : Word} {i : Instr} (h : decode w = .legal i) : w ∈ legalWords i := by
  obtain ⟨n, hn, rfl⟩ := exists_numeral_of_lt (lt_of_decode_legal h)
  exact sixBit_mem_legalWords n hn i (Decoded.instr?_eq_some_iff.2 h)

theorem decode_eq_legal_iff {w : Word} {i : Instr} : decode w = .legal i ↔ w ∈ legalWords i :=
  ⟨mem_legalWords_of_decode, decode_of_mem_legalWords⟩

/-- Settles O2: `decode` accepts exactly the words of `legalWords`, and R51's list groups these by command. -/
theorem sixteenLegalWords : Obligations.SixteenLegalWords := by
  intro w i
  rw [decode_eq_legal_iff]
  cases i with
  | xor alpha => cases alpha <;> simp [legalWords]
  | addE alpha => cases alpha <;> simp [legalWords]
  | addD alpha => cases alpha <;> simp [legalWords]
  | shufE | shufD | ginit | gnext | pbuild | pinv => simp [legalWords]

end Sys2Proof
end

section
/-! The host driver's seed derivation (40_seed_derivation.md R62 to R67). The shape of a numeric key turns on `keyDigits`: a
minus sign is no digit, so a key is its digits or a minus sign before them, and a digit string is its own digits. -/

namespace Sys2Proof.Machine

theorem isDigit_iff {c : CodeUnit} : isDigit c = true ↔ 0x0030 ≤ c.toNat ∧ c.toNat ≤ 0x0039 := by
  simp [isDigit]

@[simp] theorem keyDigits_minusSign_cons (ds : Key) : keyDigits (minusSign :: ds) = ds := by
  simp [keyDigits]

theorem eq_keyDigits_or_eq_minusSign_cons (key : Key) : key = keyDigits key ∨ key = minusSign :: keyDigits key := by
  cases key with
  | nil => exact .inl rfl
  | cons c rest =>
    by_cases hc : c = minusSign
    · subst hc; simp
    · left; simp [keyDigits, hc]

theorem isNumeric_iff {key : Key} : isNumeric key = true ↔
    keyDigits key ≠ [] ∧ ∀ c ∈ keyDigits key, 0x0030 ≤ c.toNat ∧ c.toNat ≤ 0x0039 := by
  simp [isNumeric, isDigit_iff]

/-- The leading `-` is not one of the digits, so nothing is dropped from a digit string. -/
theorem keyDigits_of_digits {ds : Key} (hds : ∀ c ∈ ds, 0x0030 ≤ c.toNat ∧ c.toNat ≤ 0x0039) : keyDigits ds = ds := by
  cases ds with
  | nil => rfl
  | cons c rest =>
    have hc : c ≠ minusSign := by
      rintro rfl
      exact absurd (hds minusSign (by simp)) (by decide)
    simp [keyDigits, hc]

/-- Settles O52: the digits of R62's grammar are `keyDigits`. -/
theorem numericKeyGrammar : Obligations.NumericKeyGrammar := by
  intro key
  rw [isNumeric_iff]
  constructor
  · rintro ⟨hne, hds⟩
    exact ⟨keyDigits key, hne, hds, eq_keyDigits_or_eq_minusSign_cons key⟩
  · rintro ⟨ds, hne, hds, rfl | rfl⟩
    · rw [keyDigits_of_digits hds]
      exact ⟨hne, hds⟩
    · have hdigits : keyDigits (0x002D#16 :: ds) = ds := keyDigits_minusSign_cons ds
      rw [hdigits]
      exact ⟨hne, hds⟩

theorem deriveSeed_of_isNumeric {key : Key} (h : isNumeric key = true) : deriveSeed key = numericSeed key := by
  simp [deriveSeed, h]

theorem deriveSeed_of_not_isNumeric {key : Key} (h : isNumeric key = false) : deriveSeed key = hashSeed key := by
  simp [deriveSeed, h]

theorem numericSeed_toNat (key : Key) : (numericSeed key).toNat = decimalValue (keyDigits key) % 2 ^ 32 := by
  simp [numericSeed]

/-- The left-to-right reading of R63 is Mathlib's base-10 value, which takes the lowest digit first. -/
theorem decimalValue_eq_ofDigits (ds : Key) :
    decimalValue ds = Nat.ofDigits 10 (ds.reverse.map (fun c => c.toNat - 0x0030)) := by
  rw [Nat.ofDigits_eq_foldr, List.foldr_map, List.foldr_reverse]
  simp [decimalValue, add_comm]

/-- Settles O53: `ds` and `-ds` are both numeric, with the same digits `ds`. -/
theorem numericSeedIsDecimalValue : Obligations.NumericSeedIsDecimalValue := by
  intro ds hne hds
  have hplain : isNumeric ds = true := (numericKeyGrammar ds).2 ⟨ds, hne, hds, .inl rfl⟩
  have hminus : isNumeric (minusSign :: ds) = true := (numericKeyGrammar _).2 ⟨ds, hne, hds, .inr rfl⟩
  have hdigits : keyDigits ds = ds := keyDigits_of_digits hds
  constructor
  · rw [deriveSeed_of_isNumeric hplain, numericSeed_toNat, hdigits, decimalValue_eq_ofDigits]
  · change deriveSeed (minusSign :: ds) = deriveSeed ds
    rw [deriveSeed_of_isNumeric hminus, deriveSeed_of_isNumeric hplain]
    simp [numericSeed, hdigits]

/-- The code unit is widened, not cut to a byte, so the exclusive or takes all its 16 bits (R64). -/
theorem hashStep_toNat (h : Word) (c : CodeUnit) :
    (hashStep h c).toNat = ((h.toNat ^^^ c.toNat) * 0x01000193) % 2 ^ 32 := by
  have hwide : (c.setWidth 32).toNat = c.toNat := BitVec.toNat_setWidth_of_le (by decide)
  simp [hashStep, BitVec.toNat_xor, hwide]

theorem hashSeed_concat (key : Key) (c : CodeUnit) : hashSeed (key ++ [c]) = hashStep (hashSeed key) c := by
  simp [hashSeed]

theorem key8OfKey_toNat (key : Key) : (key8OfKey key).toNat = (deriveSeed key).toNat % 256 := by
  have hmask (n : Nat) : n &&& 0xFF = n % 256 := Nat.and_two_pow_sub_one_eq_mod n 8
  simp [key8OfKey, hmask]

/-- Settles O54: the hash is a left fold, so a last code unit is one more `hashStep`. -/
theorem hashSeedAbsorbsCodeUnits : Obligations.HashSeedAbsorbsCodeUnits := by
  refine ⟨rfl, ?_, fun _ => deriveSeed_of_not_isNumeric, key8OfKey_toNat, by decide, by decide⟩
  intro key c
  rw [hashSeed_concat, hashStep_toNat]

end Sys2Proof.Machine
end

section
/-! The generator (41_generator.md R70 to R77). A shift by a positive amount keeps only 0, and `xs32` is linear for exclusive
or; so `xs32` is 0 only at 0, and from that it is injective. -/

namespace Sys2Proof.Machine

/-- R70 on numbers. -/
theorem xs32_toNat (x : Word) : (xs32 x).toNat =
    let a := x.toNat ^^^ (x.toNat * 2 ^ 13 % 2 ^ 32)
    let b := a ^^^ (a / 2 ^ 17)
    b ^^^ (b * 2 ^ 5 % 2 ^ 32) := by
  simp [xs32, Nat.shiftLeft_eq, Nat.shiftRight_eq_div_pow]

theorem exec_ginit (s : State) :
    exec .ginit s = .next { s with x := s.seed, status := statusDone, unread := true } :=
  exec_of_accepted rfl

theorem exec_gnext (s : State) :
    exec .gnext s = .next { s with x := xs32 s.x, status := statusDone, unread := true } :=
  exec_of_accepted rfl

/-- Settles O22: the number is `xs32` of the number `X` held. -/
theorem gnextDraws : Obligations.GnextDraws := by
  intro s x a b c
  have hc : (xs32 s.x).toNat = c := xs32_toNat s.x
  rw [← hc, BitVec.ofNat_toNat, BitVec.setWidth_eq]
  exact exec_gnext s

/-! ### Repeated draws -/

theorem execSeq_cons_of_next {i : Instr} {s t : State} (h : exec i s = .next t) (is : List Instr) :
    execSeq (i :: is) s = execSeq is t := by
  simp [execSeq, h]

/-- On a state that a command has completed, `k` draws change only `X` (R72). -/
theorem execSeq_replicate_gnext (k : Nat) (s : State) (x : Word) :
    execSeq (List.replicate k .gnext) { s with x := x, status := statusDone, unread := true } =
      .next { s with x := xs32^[k] x, status := statusDone, unread := true } := by
  induction k generalizing x with
  | zero => rfl
  | succ k ih =>
    rw [List.replicate_succ, execSeq_cons_of_next (exec_gnext _)]
    exact ih (xs32 x)

theorem execSeq_ginit_replicate_gnext (k : Nat) (s : State) :
    execSeq (.ginit :: List.replicate k .gnext) s =
      .next { s with x := xs32^[k] s.seed, status := statusDone, unread := true } := by
  rw [execSeq_cons_of_next (exec_ginit s), execSeq_replicate_gnext]

theorem xs32_zero : xs32 0 = 0 := by decide

theorem xs32_iterate_zero (k : Nat) : xs32^[k] 0 = 0 := Function.iterate_fixed xs32_zero k

/-- Settles O24: 0 is a fixed point of the step. -/
theorem zeroSeedStaysZero : Obligations.ZeroSeedStaysZero := by
  refine ⟨xs32_zero, fun s k hseed => ?_⟩
  rw [execSeq_ginit_replicate_gnext, hseed, xs32_iterate_zero]
  rfl

/-! ### The step is a bijection -/

/-- The shift, repeated as often as the width, has moved every bit out. -/
theorem eq_zero_of_shiftLeft_eq_self {w k : Nat} {z : BitVec w} (hk : 0 < k) (h : z <<< k = z) : z = 0 := by
  have hrepeat : ∀ n, z <<< (k * n) = z := by
    intro n
    induction n with
    | zero => simp
    | succ n ih => rw [Nat.mul_succ, BitVec.shiftLeft_add, ih, h]
  rw [← hrepeat w]
  exact BitVec.shiftLeft_eq_zero (Nat.le_mul_of_pos_left w hk)

/-- The quotient by `2 ^ k` of a number that is not 0 is smaller than the number. -/
theorem eq_zero_of_ushiftRight_eq_self {w k : Nat} {z : BitVec w} (hk : 0 < k) (h : z >>> k = z) : z = 0 := by
  have hquot : z.toNat / 2 ^ k = z.toNat := by
    rw [← Nat.shiftRight_eq_div_pow, ← BitVec.toNat_ushiftRight, h]
  apply BitVec.eq_of_toNat_eq
  by_contra hne
  exact (Nat.div_lt_self (Nat.pos_of_ne_zero hne) (Nat.one_lt_two_pow hk.ne')).ne hquot

theorem eq_zero_of_xor_shiftLeft_eq_zero {w k : Nat} {z : BitVec w} (hk : 0 < k) (h : z ^^^ (z <<< k) = 0) : z = 0 :=
  eq_zero_of_shiftLeft_eq_self hk (BitVec.xor_eq_zero_iff.1 h).symm

theorem eq_zero_of_xor_ushiftRight_eq_zero {w k : Nat} {z : BitVec w} (hk : 0 < k) (h : z ^^^ (z >>> k) = 0) : z = 0 :=
  eq_zero_of_ushiftRight_eq_self hk (BitVec.xor_eq_zero_iff.1 h).symm

/-- The three steps of R70, the last one first: what each leaves is 0 only if what it was given is. -/
theorem eq_zero_of_xs32_eq_zero {x : Word} (h : xs32 x = 0) : x = 0 :=
  eq_zero_of_xor_shiftLeft_eq_zero (by decide)
    (eq_zero_of_xor_ushiftRight_eq_zero (by decide) (eq_zero_of_xor_shiftLeft_eq_zero (by decide) h))

theorem xor_shiftLeft_of_xor {w : Nat} (k : Nat) (x y : BitVec w) :
    (x ^^^ y) ^^^ ((x ^^^ y) <<< k) = (x ^^^ (x <<< k)) ^^^ (y ^^^ (y <<< k)) := by
  rw [BitVec.shiftLeft_xor_distrib]
  ac_rfl

theorem xor_ushiftRight_of_xor {w : Nat} (k : Nat) (x y : BitVec w) :
    (x ^^^ y) ^^^ ((x ^^^ y) >>> k) = (x ^^^ (x >>> k)) ^^^ (y ^^^ (y >>> k)) := by
  rw [BitVec.ushiftRight_xor_distrib]
  ac_rfl

theorem xs32_xor (x y : Word) : xs32 (x ^^^ y) = xs32 x ^^^ xs32 y := by
  dsimp only [xs32]
  rw [xor_shiftLeft_of_xor 13, xor_ushiftRight_of_xor 17, xor_shiftLeft_of_xor 5]

theorem xs32_injective : Function.Injective xs32 := by
  intro x y h
  apply BitVec.xor_eq_zero_iff.1
  apply eq_zero_of_xs32_eq_zero
  exact (xs32_xor x y).trans (BitVec.xor_eq_zero_iff.2 h)

/-- Settles O25: an injection of a finite type is a bijection, and the iterates of an injection are injections that keep 0. -/
theorem stepFunctionBijective : Obligations.StepFunctionBijective := by
  refine ⟨Finite.injective_iff_bijective.1 xs32_injective, fun x => eq_zero_of_xs32_eq_zero, ?_⟩
  intro seed k hseed hzero
  exact hseed (xs32_injective.iterate k (hzero.trans (xs32_iterate_zero k).symm))

end Sys2Proof.Machine
end

section
/-! Permutations (42_permutation.md R80 to R89). The statements are about `PERM` and `INV` as functions on `[0, n)`: what
`build` leaves is SCT2's permutation, a bijection; under seed 0 that permutation is a rotation; and what `invert` leaves on a
bijection is its inverse, because no two of the writes meet. -/

namespace Sys2Proof.Machine

@[simp] theorem readPerm_complete (s : State) (k : Nat) : s.complete.readPerm k = s.readPerm k := rfl

/-! ### The commands under the hypotheses of the statements -/

theorem exec_pbuild {s : State} (h : s.pn.toNat ≤ s.cap.toNat) :
    exec .pbuild s = .next (build s.pn.toNat s.accept).complete :=
  exec_of_accepted ((checkLength_none_iff s).2 h)

theorem exec_pinv {s : State} (h : s.pn.toNat ≤ s.cap.toNat) (hrange : ∀ i < s.pn.toNat, (s.readPerm i).toNat < s.pn.toNat) :
    exec .pinv s = .next (invert s.pn.toNat s.accept).complete :=
  exec_of_accepted ((checkPinv_none_iff s).2 ⟨h, hrange⟩)

theorem exec_shufE {s : State} (h : s.transformReady) :
    exec .shufE s = .next (shuffleEncrypt s.pixelCount s.accept).complete :=
  exec_of_accepted ((checkTransform_none_iff s).2 h)

theorem exec_shufD {s : State} (h : s.transformReady) :
    exec .shufD s = .next (shuffleDecrypt s.pixelCount s.accept).complete :=
  exec_of_accepted ((checkTransform_none_iff s).2 h)

/-- A length held in a register is a number of 32 bits. -/
theorem pixelCount_le (s : State) : s.pixelCount ≤ 2 ^ 32 :=
  (Nat.div_le_self _ _).trans s.buflen.isLt.le

/-! ### `PERM` after each command that builds is a bijection (R87) -/

/-- A bijection on `[0, n)` in the words of R87: entries in range, every index at exactly one place. -/
theorem existsUnique_of_bijOn {n : Nat} {f : Nat → Nat} (hf : Set.BijOn f (Set.Iio n) (Set.Iio n)) :
    (∀ i < n, f i < n) ∧ ∀ j < n, ∃! i : Nat, i < n ∧ f i = j := by
  refine ⟨fun i hi => hf.mapsTo hi, fun j hj => ?_⟩
  obtain ⟨i, hi, hij⟩ := hf.surjOn hj
  exact ⟨i, ⟨hi, hij⟩, fun k ⟨hk, hkj⟩ => hf.injOn hk hi (hkj.trans hij.symm)⟩

theorem build_bijOn {n : Nat} (hn : n ≤ 2 ^ 32) (s : State) :
    Set.BijOn (fun i => ((build n s).readPerm i).toNat) (Set.Iio n) (Set.Iio n) :=
  (permutationOf_bijOn n s.seed).congr fun _ hi => (build_readPerm hn s hi).symm

/-- The gather after `build` leaves `PERM` alone. -/
theorem shuffleEncrypt_readPerm (n : Nat) (s : State) (i : Nat) :
    (shuffleEncrypt n s).readPerm i = (build n s).readPerm i := by
  unfold shuffleEncrypt
  rw [gatherPerm_frame]
  rfl

/-- The inverse pass and the gather after `build` leave `PERM` alone. -/
theorem shuffleDecrypt_readPerm (n : Nat) (s : State) (i : Nat) :
    (shuffleDecrypt n s).readPerm i = (build n s).readPerm i := by
  unfold shuffleDecrypt
  rw [gatherInv_frame]
  exact invert_readPerm n (build n s) i

/-- Settles O27: each of the three commands leaves in `PERM` what `build` left. -/
theorem buildLeavesBijection : Obligations.BuildLeavesBijection := by
  unfold Obligations.BuildLeavesBijection
  intro bijection s
  have hbuild (n : Nat) (hn : n ≤ 2 ^ 32) (t : State) (ht : ∀ i, t.readPerm i = (build n s.accept).readPerm i) :
      bijection t n := by
    apply existsUnique_of_bijOn
    simpa only [ht] using build_bijOn hn s.accept
  refine ⟨fun h => ⟨_, exec_pbuild h, ?_⟩, fun h => ⟨_, exec_shufE h, ?_⟩, fun h => ⟨_, exec_shufD h, ?_⟩⟩
  · exact hbuild _ s.pn.isLt.le _ fun i => rfl
  · exact hbuild _ (pixelCount_le s) _ (shuffleEncrypt_readPerm _ _)
  · exact hbuild _ (pixelCount_le s) _ (shuffleDecrypt_readPerm _ _)

/-! ### Lengths 0, 1 and 2 (R83) -/

theorem build_zero (s : State) : build 0 s = s.reseed := rfl

theorem build_one (s : State) : build 1 s = s.reseed.writePerm 0 0 := rfl

/-- The one draw of `build(2)` decides whether entry 1 changes places with entry 0 or with itself. -/
theorem permutationOf_two (seed : Word) : permutationOf 2 seed = swapPlaces id 1 ((xs32 seed).toNat % 2) := rfl

theorem build_x (n : Nat) (s : State) : (build n s).x = afterDraws (n - 1) s.seed := by
  rw [build_frame]

/-- An entry as a word; `build_readPerm` is its number. -/
theorem build_readPerm_eq_ofNat {n i : Nat} (s : State) (hi : i < n) :
    (build n s).readPerm i = BitVec.ofNat 32 (permutationOf n s.seed i) := by
  rw [State.readPerm, build_read, if_pos hi, Option.getD_some]

theorem build_two_of_odd {s : State} (h : (xs32 s.seed).toNat % 2 = 1) :
    (build 2 s).readPerm 0 = 0#32 ∧ (build 2 s).readPerm 1 = 1#32 := by
  rw [build_readPerm_eq_ofNat s (by decide), build_readPerm_eq_ofNat s (by decide), permutationOf_two, h]
  decide

theorem build_two_of_even {s : State} (h : (xs32 s.seed).toNat % 2 = 0) :
    (build 2 s).readPerm 0 = 1#32 ∧ (build 2 s).readPerm 1 = 0#32 := by
  rw [build_readPerm_eq_ofNat s (by decide), build_readPerm_eq_ofNat s (by decide), permutationOf_two, h]
  decide

/-- Settles O28: `build(0)` is the re-seed, `build(1)` that and one write, and `build(2)` turns on the parity of its draw. -/
theorem degenerateLengths : Obligations.DegenerateLengths := by
  intro s hcap
  refine ⟨_, exec_pbuild hcap, fun h0 => ?_, fun h1 => ?_, fun h2 => ?_, fun i hi => ?_⟩
  · rw [h0, build_zero]
    rfl
  · rw [h1, build_one]
    exact ⟨rfl, rfl⟩
  · rw [h2]
    exact ⟨build_x 2 s.accept, build_two_of_odd (s := s.accept), build_two_of_even (s := s.accept)⟩
  · rw [State.complete_perm, build_read, if_neg (by omega)]
    rfl

/-! ### Seed 0 rotates (R89) -/

/-- From generator state 0 every draw is 0, so every index from `k` down to 1 changes places with index 0: the places `0 .. k`
rotate by one, the others stay. -/
theorem fisherYatesFrom_zero (k : Nat) (p : Nat → Nat) (j : Nat) :
    fisherYatesFrom k 0 p j = if j < k then p (j + 1) else if j = k then p 0 else p j := by
  induction k generalizing p with
  | zero => by_cases hj : j = 0 <;> simp [fisherYatesFrom, hj]
  | succ k ih =>
    have hr : (xs32 0).toNat % (k + 1 + 1) = 0 := by rw [xs32_zero]; exact Nat.zero_mod _
    rw [fisherYatesFrom, hr, xs32_zero, ih]
    rcases Nat.lt_trichotomy j k with hlt | rfl | hgt
    · have hne : j ≠ k := by omega
      simp [swapPlaces, hlt, hne, Nat.lt_succ_of_lt hlt]
    · simp [swapPlaces]
    · have hnlt : ¬ j < k := by omega
      have hne : j ≠ k := by omega
      have hnlt' : ¬ j < k + 1 := by omega
      have hne0 : j ≠ 0 := by omega
      simp [swapPlaces, hnlt, hne, hnlt', hne0]

/-- R89. -/
theorem permutationOf_seed_zero {n d : Nat} (hd : d < n) : permutationOf n 0 d = (d + 1) % n := by
  rw [permutationOf, fisherYatesFrom_zero]
  rcases Nat.lt_or_ge d (n - 1) with hlt | hge
  · rw [if_pos hlt, Nat.mod_eq_of_lt (by omega), id]
  · have hlast : d = n - 1 := by omega
    have hwrap : d + 1 = n := by omega
    rw [if_neg (by omega), if_pos hlast, hwrap, Nat.mod_self, id]

/-- `SHUF.E` moves whole pixels: output pixel `d` is the source pixel the permutation names (R101). -/
theorem shuffleEncrypt_pixelOf {n d : Nat} (hn : n ≤ 2 ^ 32) (s : State) (hd : d < n) :
    pixelOf (shuffleEncrypt n s).readDst d = pixelOf s.readSrc (permutationOf n s.seed d) := by
  have hbyte (c : Nat) (hc : c < 4) :
      (shuffleEncrypt n s).readDst (4 * d + c) = s.readSrc (4 * permutationOf n s.seed d + c) := by
    have hdiv : (4 * d + c) / 4 = d := by omega
    have hmod : (4 * d + c) % 4 = c := by omega
    rw [State.readDst, shuffleEncrypt_read hn, if_pos (by omega), hdiv, hmod, Option.getD_some]
  simp only [pixelOf, Prod.mk.injEq]
  exact ⟨hbyte 0 (by decide), hbyte 1 (by decide), hbyte 2 (by decide), hbyte 3 (by decide)⟩

/-- Settles O29: both commands leave SCT2's permutation of seed 0. -/
theorem zeroSeedRotates : Obligations.ZeroSeedRotates := by
  intro s hseed
  have hrotation {n d : Nat} (hd : d < n) : permutationOf n s.accept.seed d = (d + 1) % n := by
    rw [State.accept_seed, hseed, permutationOf_seed_zero hd]
  refine ⟨fun h => ⟨_, exec_pbuild h, fun d hd => ?_⟩, fun h => ⟨_, exec_shufE h, fun d hd => ?_⟩⟩
  · rw [readPerm_complete, build_readPerm s.pn.isLt.le _ hd, hrotation hd]
  · rw [← hrotation hd]
    exact shuffleEncrypt_pixelOf (pixelCount_le s) s.accept hd

/-! ### Inverting a bijection (R88) -/

section Writes
variable {α : Type} {addr : Nat → Nat} {value : Nat → α}

/-- Writes at other addresses leave an address as it was. -/
theorem Memory.read_foldl_write_of_ne {order : List Nat} {a : Nat} (h : ∀ i ∈ order, addr i ≠ a) (old : Memory α) :
    Memory.read (order.foldl (fun m i => Memory.write m (addr i) (value i)) old) a = Memory.read old a := by
  induction order generalizing old with
  | nil => rfl
  | cons k order ih =>
    obtain ⟨hk, hrest⟩ := List.forall_mem_cons.1 h
    rw [List.foldl_cons, ih hrest, Memory.read_write, if_neg hk.symm]

/-- When no two writes meet, each of them is still there at the end, in whatever order they were made. -/
theorem Memory.read_foldl_write_of_injOn {order : List Nat} (hinj : Set.InjOn addr {i | i ∈ order}) {i : Nat}
    (hi : i ∈ order) (old : Memory α) :
    Memory.read (order.foldl (fun m i => Memory.write m (addr i) (value i)) old) (addr i) = some (value i) := by
  induction order generalizing old with
  | nil => simp at hi
  | cons k order ih =>
    rw [List.foldl_cons]
    by_cases hlater : i ∈ order
    · exact ih (hinj.mono fun j hj => List.mem_cons_of_mem k hj) hlater _
    · have hik : i = k := (List.mem_cons.1 hi).resolve_right hlater
      have hother : ∀ j ∈ order, addr j ≠ addr i := fun j hj he =>
        hlater (hinj (List.mem_cons_of_mem k hj) hi he ▸ hj)
      rw [Memory.read_foldl_write_of_ne hother, Memory.read_write, if_pos (congrArg addr hik), hik]

end Writes

section Bijection
variable {n : Nat} {s : State}

/-- Entries in range without a repetition are a bijection, `[0, n)` being finite. -/
theorem readPerm_bijOn (hrange : ∀ i < n, (s.readPerm i).toNat < n)
    (hinj : ∀ i < n, ∀ j < n, s.readPerm i = s.readPerm j → i = j) :
    Set.BijOn (fun i => (s.readPerm i).toNat) (Set.Iio n) (Set.Iio n) := by
  apply ((Set.finite_Iio n).injOn_iff_bijOn_of_mapsTo hrange).1
  exact fun i hi j hj h => hinj i hi j hj (BitVec.eq_of_toNat_eq h)

variable (hperm : Set.BijOn (fun i => (s.readPerm i).toNat) (Set.Iio n) (Set.Iio n))
include hperm

/-- Without a repetition the last index that names an entry is the only one (R86). -/
theorem invert_read_of_bijOn {i : Nat} (hi : i < n) :
    Memory.read (invert n s).inv (s.readPerm i).toNat = some (BitVec.ofNat 32 i) :=
  invert_read_hit hi rfl fun _ hij hj he => hij.ne (hperm.injOn hi hj he.symm)

/-- `INV` is the inverse of `PERM` (R88). -/
theorem invert_invOn (hn : n ≤ 2 ^ 32) :
    Set.InvOn (fun j => ((invert n s).readInv j).toNat) (fun i => (s.readPerm i).toNat) (Set.Iio n) (Set.Iio n) := by
  have hleft : Set.LeftInvOn (fun j => ((invert n s).readInv j).toNat) (fun i => (s.readPerm i).toNat) (Set.Iio n) := by
    intro i (hi : i < n)
    change ((invert n s).readInv (s.readPerm i).toNat).toNat = i
    rw [State.readInv, invert_read_of_bijOn hperm hi, Option.getD_some, BitVec.toNat_ofNat, Nat.mod_eq_of_lt (by omega)]
  exact ⟨hleft, hperm.surjOn.leftInvOn_of_rightInvOn hleft⟩

/-- The writes of the pass, in any order and onto any old contents, leave below `n` what `invert` leaves (R88). -/
theorem invert_read_eq_of_order {order : List Nat} (horder : order.Perm (List.range n)) (old : Memory Word) {j : Nat}
    (hj : j < n) :
    Memory.read (order.foldl (fun m i => Memory.write m (s.readPerm i).toNat (BitVec.ofNat 32 i)) old) j =
      Memory.read (invert n s).inv j := by
  have hmem (i : Nat) : i ∈ order ↔ i < n := by rw [horder.mem_iff, List.mem_range]
  obtain ⟨i, hi, rfl⟩ := hperm.surjOn hj
  have hinj : Set.InjOn (fun i => (s.readPerm i).toNat) {i | i ∈ order} :=
    hperm.injOn.mono fun k hk => (hmem k).1 hk
  exact (Memory.read_foldl_write_of_injOn hinj ((hmem i).2 hi) old).trans (invert_read_of_bijOn hperm hi).symm

end Bijection

/-- Settles O31: `INV` is the inverse of `PERM`, so it is a bijection too, and it is what the writes leave in any order. -/
theorem pinvInvertsBijection : Obligations.PinvInvertsBijection := by
  intro s hcap hrange hinj
  have hperm := readPerm_bijOn hrange hinj
  have hinv := invert_invOn (s := s.accept) hperm s.pn.isLt.le
  obtain ⟨hbelow, hunique⟩ := existsUnique_of_bijOn (hperm.symm hinv.symm)
  refine ⟨_, exec_pinv hcap hrange, fun i hi => ?_, fun j hj => ?_, hbelow, hunique, fun old order horder j hj => ?_⟩
  · rw [readPerm_complete, invert_readPerm]
    exact hinv.1 hi
  · rw [readPerm_complete, invert_readPerm]
    exact hinv.2 hj
  · exact invert_read_eq_of_order (s := s.accept) hperm horder old hj

end Sys2Proof.Machine
end

section
/-! The byte commands (43_byte_transform.md R90 to R95). Each is the byte pass of one byte function, so what it leaves is said
once, for every such command; a round trip then turns on the two byte functions undoing each other. -/

namespace Sys2Proof.Machine

/-! ### The byte functions, as operations on bytes -/

theorem byteXor_eq (key b : Byte) : byteXor key b = b ^^^ key := rfl

theorem byteAdd_eq (key b : Byte) : byteAdd key b = b + key := by
  apply BitVec.eq_of_toNat_eq
  simp [byteAdd]

theorem byteSub_eq (key b : Byte) : byteSub key b = b - key := by
  apply BitVec.eq_of_toNat_eq
  have hkey : key.toNat < 256 := key.isLt
  have hcomm : b.toNat + 256 - key.toNat = 256 - key.toNat + b.toNat := by omega
  simp [byteSub, BitVec.toNat_sub, hcomm]

theorem byteXor_byteXor (key b : Byte) : byteXor key (byteXor key b) = b := by
  simp [byteXor_eq]

theorem byteSub_byteAdd (key b : Byte) : byteSub key (byteAdd key b) = b := by
  rw [byteSub_eq, byteAdd_eq, BitVec.add_sub_cancel]

theorem byteAdd_byteSub (key b : Byte) : byteAdd key (byteSub key b) = b := by
  rw [byteAdd_eq, byteSub_eq, BitVec.sub_add_cancel]

/-! ### What a byte command leaves -/

/-- `i` is the byte command of byte function `f` (R90). -/
def RunsBytePass (i : Instr) (f : Byte → Byte → Byte) (alpha : Bool) : Prop :=
  ∀ s : State, exec i s = runCommand (checkTransform s) (bytePass (f s.key8) alpha s.pixelCount) s

theorem runsBytePass_xor (alpha : Bool) : RunsBytePass (.xor alpha) byteXor alpha := fun _ => rfl

theorem runsBytePass_addE (alpha : Bool) : RunsBytePass (.addE alpha) byteAdd alpha := fun _ => rfl

theorem runsBytePass_addD (alpha : Bool) : RunsBytePass (.addD alpha) byteSub alpha := fun _ => rfl

/-- A legal `BUFLEN` is four bytes a pixel. -/
theorem four_mul_pixelCount {s : State} (h : s.transformReady) : 4 * s.pixelCount = s.buflen.toNat :=
  Nat.mul_div_cancel' (Nat.dvd_of_mod_eq_zero h.1)

/-- A legal `BUFLEN` fits the pixel memories. -/
theorem buflen_le_of_transformReady {s : State} (h : s.transformReady) : s.buflen.toNat ≤ 4 * s.maxPix := by
  rw [← four_mul_pixelCount h]
  exact Nat.mul_le_mul_left 4 h.2

/-- R90, with the frame of R38. -/
theorem RunsBytePass.result {i : Instr} {f : Byte → Byte → Byte} {alpha : Bool} (hi : RunsBytePass i f alpha) {s : State}
    (hready : s.transformReady) :
    ∃ d : Memory Byte, exec i s = .next { s with dst := d, status := statusDone, unread := true } ∧
      ∀ a, Memory.read d a = if a < s.buflen.toNat then some (byteOut (f s.key8) alpha s a) else Memory.read s.dst a := by
  refine ⟨(bytePass (f s.key8) alpha s.pixelCount s.accept).dst, ?_, fun a => ?_⟩
  · rw [hi, runCommand_accept ((checkTransform_none_iff s).2 hready), bytePass_frame]
    rfl
  · rw [bytePass_read, four_mul_pixelCount hready]
    rfl

/-! ### Key byte 0 (R95) -/

/-- A byte function that changes no byte copies the alpha byte too, whatever `ALPHA` says. -/
theorem byteOut_of_forall_eq {f : Byte → Byte} (hf : ∀ b, f b = b) (alpha : Bool) (s : State) (a : Nat) :
    byteOut f alpha s a = s.readSrc a := by
  simp [byteOut, hf]

theorem RunsBytePass.copies {i : Instr} {f : Byte → Byte → Byte} {alpha : Bool} (hi : RunsBytePass i f alpha) {s : State}
    (hready : s.transformReady) (hf : ∀ b, f s.key8 b = b) :
    ∃ d : Memory Byte, exec i s = .next { s with dst := d, status := statusDone, unread := true } ∧
      ∀ a, Memory.read d a = if a < s.buflen.toNat then some (s.readSrc a) else Memory.read s.dst a := by
  obtain ⟨d, hexec, hread⟩ := hi.result hready
  refine ⟨d, hexec, fun a => ?_⟩
  rw [hread, byteOut_of_forall_eq hf]

/-- Settles O37: none of the three byte functions changes a byte under key 0. -/
theorem zeroKeyByteCopies : Obligations.ZeroKeyByteCopies := by
  intro s alpha i hi hready hseed
  have hkey : s.key8 = 0 := hseed
  simp only [List.mem_cons, List.not_mem_nil, or_false] at hi
  rcases hi with rfl | rfl | rfl
  · exact (runsBytePass_xor alpha).copies hready fun b => by simp [hkey, byteXor_eq]
  · exact (runsBytePass_addE alpha).copies hready fun b => by simp [hkey, byteAdd_eq]
  · exact (runsBytePass_addD alpha).copies hready fun b => by simp [hkey, byteSub_eq]

/-! ### Round trips (R94) -/

/-- Between two commands the host waits and copies `DST` back: on a block that has finished this changes `SRC`, the record of
replies and the read owed, and the first `n` bytes of `SRC` are then those of `DST`. -/
theorem waitDone_copyBack {t : State} (delay : Nat) {n : Nat} (hbusy : t.busy = false) (hn : n ≤ 4 * t.maxPix) :
    ∃ (t₁ : State) (m : Memory Byte) (r : List Reply), waitDone delay t = .returned t.status t₁ ∧
      copyBack 0 n t₁ = .returned () { t with src := m, replies := r, unread := false } ∧
      ∀ a < n, Memory.read m a = some (t.readDst a) := by
  obtain ⟨m, r, hcopy, hread⟩ := copyBack_eq (s := t.released.statusLogged) (n := n) (k := 0) (held_released hbusy)
    (show 0 + n ≤ 4 * t.maxPix by omega)
  refine ⟨_, m, r, waitDone_idle hbusy delay, hcopy, fun a ha => ?_⟩
  rw [hread, if_pos (by omega)]
  rfl

/-- A byte is transformed by both passes or copied by both, so the second pass undoes the first when its byte function does. -/
theorem byteOut_of_leftInverse {f g : Byte → Byte} (hgf : ∀ b, g (f b) = b) {alpha : Bool} {s t : State} {a : Nat}
    (ht : t.readSrc a = byteOut f alpha s a) : byteOut g alpha t a = s.readSrc a := by
  unfold byteOut at ht ⊢
  rw [ht]
  split
  · rfl
  · exact hgf _

theorem RunsBytePass.roundTrip {i j : Instr} {f g : Byte → Byte → Byte} {alpha : Bool} (hi : RunsBytePass i f alpha)
    (hj : RunsBytePass j g alpha) (hgf : ∀ key b, g key (f key b) = b) {s : State} {seed : Word} (delay : Nat)
    (hready : s.transformReady) (hseed : seed.extractLsb' 0 8 = s.key8) :
    ∃ t t₁ t₂ u : State, exec i s = .next t ∧ waitDone delay t = .returned statusDone t₁ ∧
      copyBack 0 s.buflen.toNat t₁ = .returned () t₂ ∧
      exec j { t₂ with seed := seed } = .next u ∧ ∀ k < s.buflen.toNat, u.readDst k = s.readSrc k := by
  obtain ⟨d, hexec, hd⟩ := hi.result hready
  let t : State := { s with dst := d, status := statusDone, unread := true }
  obtain ⟨t₁, m, r, hwait, hcopy, hm⟩ :=
    waitDone_copyBack (t := t) delay statusBusyBit_done (buflen_le_of_transformReady hready)
  let t₂ : State := { t with src := m, replies := r, unread := false, seed := seed }
  obtain ⟨d', hexec', hd'⟩ := hj.result (s := t₂) hready
  refine ⟨t, t₁, _, _, hexec, hwait, hcopy, hexec', fun k hk => ?_⟩
  have hkey : t₂.key8 = s.key8 := hseed
  have hsrc : t₂.readSrc k = byteOut (f s.key8) alpha s k :=
    calc t₂.readSrc k
      _ = t.readDst k := by rw [State.readSrc, hm k hk, Option.getD_some]
      _ = byteOut (f s.key8) alpha s k := by rw [State.readDst, hd, if_pos hk, Option.getD_some]
  rw [State.readDst, hd', if_pos hk, Option.getD_some, hkey]
  exact byteOut_of_leftInverse (hgf s.key8) hsrc

/-- One pixel of zeros under key byte 1. -/
def zeroPixel : State :=
  { State.resetWith 1 with seed := 1, buflen := 4, src := [(0, 0), (1, 0), (2, 0), (3, 0)] }

/-- With `ALPHA` = 1 and then 0 the alpha byte of `zeroPixel` is transformed once and comes back as 1. -/
theorem xor_alphaOn_alphaOff_zeroPixel :
    ∃ t t₁ t₂ u : State, exec (.xor true) zeroPixel = .next t ∧ waitDone 0 t = .returned 0x00000002#32 t₁ ∧
      copyBack 0 4 t₁ = .returned () t₂ ∧ exec (.xor false) t₂ = .next u ∧ u.readDst 3 = 1 :=
  ⟨_, _, _, _, rfl, rfl, rfl, rfl, rfl⟩

/-- Settles O36: the byte functions of each pair undo each other; the counterexample is `zeroPixel`. -/
theorem byteRoundTrip : Obligations.ByteRoundTrip := by
  refine ⟨fun s alpha i j seed delay hij hready hseed => ?_, ?_⟩
  · simp only [List.mem_cons, List.not_mem_nil, or_false, Prod.mk.injEq] at hij
    rcases hij with ⟨rfl, rfl⟩ | ⟨rfl, rfl⟩ | ⟨rfl, rfl⟩
    · exact (runsBytePass_xor alpha).roundTrip (runsBytePass_xor alpha) byteXor_byteXor delay hready hseed
    · exact (runsBytePass_addE alpha).roundTrip (runsBytePass_addD alpha) byteSub_byteAdd delay hready hseed
    · exact (runsBytePass_addD alpha).roundTrip (runsBytePass_addE alpha) byteAdd_byteSub delay hready hseed
  · obtain ⟨t, t₁, t₂, u, hfirst, hwait, hcopy, hsecond, hout⟩ := xor_alphaOn_alphaOff_zeroPixel
    have hdiffers : u.readDst 3 ≠ zeroPixel.readSrc 3 := by
      rw [hout]
      decide
    exact ⟨zeroPixel, t, t₁, t₂, u, 3, by decide, hfirst, hwait, hcopy, hsecond, by decide, hdiffers⟩

end Sys2Proof.Machine
end

section
/-! The shuffle commands (44_pixel_shuffle.md R100 to R105). Both move whole pixels by the one permutation of `SEED` and
`BUFLEN`: `SHUF.E` gathers the input through it, and the output of `SHUF.D` is the buffer from which it gathers the input. So
each undoes the other, and neither makes or loses a pixel. -/

namespace Sys2Proof.Machine

/-! ### Pixels and their bytes (R31) -/

theorem pixelOf_eq_iff {a b : Nat → Byte} {p q : Nat} :
    pixelOf a p = pixelOf b q ↔ ∀ c < 4, a (4 * p + c) = b (4 * q + c) := by
  simp only [pixelOf, Prod.mk.injEq]
  constructor
  · rintro ⟨hr, hg, hb, ha⟩ c hc
    interval_cases c
    exacts [hr, hg, hb, ha]
  · intro h
    exact ⟨h 0 (by decide), h 1 (by decide), h 2 (by decide), h 3 (by decide)⟩

/-- Two buffers agree in their first `n` pixels. -/
def SamePixels (n : Nat) (a b : Nat → Byte) : Prop := ∀ d < n, pixelOf a d = pixelOf b d

theorem samePixels_iff {n : Nat} {a b : Nat → Byte} : SamePixels n a b ↔ ∀ k < 4 * n, a k = b k := by
  constructor
  · intro h k hk
    have hbyte := pixelOf_eq_iff.1 (h (k / 4) (by omega)) (k % 4) (Nat.mod_lt k (by decide))
    rwa [Nat.div_add_mod] at hbyte
  · exact fun h d hd => pixelOf_eq_iff.2 fun c hc => h (4 * d + c) (by omega)

/-! ### Gathering through a permutation -/

/-- How the first `n` pixels of an output buffer come from those of an input buffer, by a permutation of `[0, n)`. -/
abbrev Placement := (n : Nat) → (perm : Nat → Nat) → (input output : Nat → Byte) → Prop

/-- Output pixel `d` is input pixel `perm d`, whole (R100). -/
def gathered : Placement := fun n perm input output => ∀ d < n, pixelOf output d = pixelOf input (perm d)

/-- Output pixel `perm d` is input pixel `d`, whole: the input is what gathering the output would give (R102). -/
def scattered : Placement := fun n perm input output => gathered n perm output input

/-- Placing pixels by `S` what `R` placed by the same permutation gives back the buffer. -/
def Placement.UndoneBy (R S : Placement) : Prop :=
  ∀ {n : Nat} {perm : Nat → Nat} {input output input' output' : Nat → Byte}, Set.BijOn perm (Set.Iio n) (Set.Iio n) →
    R n perm input output → SamePixels n input' output → S n perm input' output' → SamePixels n output' input

/-- Every pixel of the gathered buffer was one of its source, so what is gathered determines the source. -/
theorem gathered_undoneBy_scattered : Placement.UndoneBy gathered scattered := by
  intro n perm input output input' output' hperm hfirst hcopy hsecond d hd
  obtain ⟨j, hj, rfl⟩ := hperm.surjOn hd
  calc pixelOf output' (perm j)
    _ = pixelOf input' j := (hsecond j hj).symm
    _ = pixelOf output j := hcopy j hj
    _ = pixelOf input (perm j) := hfirst j hj

theorem scattered_undoneBy_gathered : Placement.UndoneBy scattered gathered := by
  intro n perm input output input' output' hperm hfirst hcopy hsecond d hd
  calc pixelOf output' d
    _ = pixelOf input' (perm d) := hsecond d hd
    _ = pixelOf output (perm d) := hcopy (perm d) (hperm.mapsTo hd)
    _ = pixelOf input d := (hfirst d hd).symm

/-- The first `n` pixels of a buffer, in their order. -/
def pixelList (n : Nat) (bytes : Nat → Byte) : List (Byte × Byte × Byte × Byte) := (List.range n).map (pixelOf bytes)

/-- A bijection on `[0, n)` lists the same indices in another order. -/
theorem map_range_perm_of_bijOn {n : Nat} {f : Nat → Nat} (hf : Set.BijOn f (Set.Iio n) (Set.Iio n)) :
    ((List.range n).map f).Perm (List.range n) := by
  have hinj : ∀ i ∈ List.range n, ∀ j ∈ List.range n, f i = f j → i = j := fun i hi j hj =>
    hf.injOn (List.mem_range.1 hi) (List.mem_range.1 hj)
  refine (List.perm_ext_iff_of_nodup (List.nodup_range.map_on hinj) List.nodup_range).2 fun j => ?_
  have himage := Set.ext_iff.1 hf.image_eq j
  simpa only [List.mem_map, List.mem_range, Set.mem_image, Set.mem_Iio] using himage

theorem pixelList_perm_of_gathered {n : Nat} {perm : Nat → Nat} {input output : Nat → Byte}
    (hperm : Set.BijOn perm (Set.Iio n) (Set.Iio n)) (h : gathered n perm input output) :
    (pixelList n output).Perm (pixelList n input) := by
  have hlist : pixelList n output = ((List.range n).map perm).map (pixelOf input) := by
    rw [List.map_map]
    exact List.map_congr_left fun d hd => h d (List.mem_range.1 hd)
  rw [hlist]
  exact (map_range_perm_of_bijOn hperm).map (pixelOf input)

/-! ### What a shuffle leaves -/

/-- The operands of a transform are unchanged from `s` to `t` (R116). -/
structure SameOperands (s t : State) : Prop where
  seed : t.seed = s.seed
  buflen : t.buflen = s.buflen
  cap : t.cap = s.cap

theorem SameOperands.pixelCount {s t : State} (h : SameOperands s t) : t.pixelCount = s.pixelCount := by
  rw [State.pixelCount, h.buflen, State.pixelCount]

theorem SameOperands.transformReady {s t : State} (h : SameOperands s t) (hready : s.transformReady) : t.transformReady := by
  rwa [State.transformReady, State.maxPix, h.buflen, h.cap]

theorem sameOperands_procedure (i : Instr) (s : State) : SameOperands s (procedure i s s.accept).complete := by
  rw [procedure_frame]
  exact ⟨rfl, rfl, rfl⟩

/-- `SHUF.D` moves whole pixels: output pixel `perm j` is source pixel `j` (R102). -/
theorem shuffleDecrypt_pixelOf {n j : Nat} (hn : n ≤ 2 ^ 32) (s : State) (hj : j < n) :
    pixelOf (shuffleDecrypt n s).readDst (permutationOf n s.seed j) = pixelOf s.readSrc j := by
  refine pixelOf_eq_iff.2 fun c hc => ?_
  rw [State.readDst, shuffleDecrypt_read hn s hj hc, Option.getD_some]

/-- `i` is the shuffle that places pixels by `R`, by SCT2's permutation of `SEED` and `BUFLEN`. -/
def RunsShuffle (i : Instr) (R : Placement) : Prop :=
  ∀ s : State, s.transformReady →
    ∃ t : State, exec i s = .next t ∧ t.status = statusDone ∧ SameOperands s t ∧
      R s.pixelCount (permutationOf s.pixelCount s.seed) s.readSrc t.readDst

theorem runsShuffle_shufE : RunsShuffle .shufE gathered := fun s hready =>
  ⟨_, exec_shufE hready, rfl, sameOperands_procedure .shufE s, fun _ => shuffleEncrypt_pixelOf (pixelCount_le s) s.accept⟩

theorem runsShuffle_shufD : RunsShuffle .shufD scattered := fun s hready =>
  ⟨_, exec_shufD hready, rfl, sameOperands_procedure .shufD s,
    fun _ hj => (shuffleDecrypt_pixelOf (pixelCount_le s) s.accept hj).symm⟩

/-! ### Round trips (R104) -/

theorem RunsShuffle.roundTrip {i j : Instr} {R S : Placement} (hi : RunsShuffle i R) (hj : RunsShuffle j S)
    (hundo : R.UndoneBy S) {s : State} (delay : Nat) (hready : s.transformReady) :
    ∃ t t₁ t₂ u : State, exec i s = .next t ∧ waitDone delay t = .returned statusDone t₁ ∧
      copyBack 0 s.buflen.toNat t₁ = .returned () t₂ ∧ exec j t₂ = .next u ∧
      ∀ k < s.buflen.toNat, u.readDst k = s.readSrc k := by
  obtain ⟨t, hexec, hdone, hsame, hfirst⟩ := hi s hready
  have hfits : s.buflen.toNat ≤ 4 * t.maxPix := by
    rw [← hsame.buflen]
    exact buflen_le_of_transformReady (hsame.transformReady hready)
  obtain ⟨t₁, m, r, hwait, hcopy, hm⟩ := waitDone_copyBack delay (busy_of_exec hexec) hfits
  let t₂ : State := { t with src := m, replies := r, unread := false }
  have hsame₂ : SameOperands s t₂ := ⟨hsame.seed, hsame.buflen, hsame.cap⟩
  obtain ⟨u, hexec₂, -, -, hsecond⟩ := hj t₂ (hsame₂.transformReady hready)
  rw [hsame₂.pixelCount, hsame₂.seed] at hsecond
  have hcopied : SamePixels s.pixelCount t₂.readSrc t.readDst := samePixels_iff.2 fun k hk => by
    rw [four_mul_pixelCount hready] at hk
    rw [State.readSrc, hm k hk, Option.getD_some]
  have hback : SamePixels s.pixelCount u.readDst s.readSrc :=
    hundo (permutationOf_bijOn s.pixelCount s.seed) hfirst hcopied hsecond
  rw [samePixels_iff, four_mul_pixelCount hready] at hback
  exact ⟨t, t₁, t₂, u, hexec, hdone ▸ hwait, hcopy, hexec₂, hback⟩

/-- Settles O40: gathering and scattering through one permutation undo each other, in either order. -/
theorem shuffleRoundTrip : Obligations.ShuffleRoundTrip := by
  intro s i j delay hij hready
  simp only [List.mem_cons, List.not_mem_nil, or_false, Prod.mk.injEq] at hij
  rcases hij with ⟨rfl, rfl⟩ | ⟨rfl, rfl⟩
  · exact runsShuffle_shufE.roundTrip runsShuffle_shufD gathered_undoneBy_scattered delay hready
  · exact runsShuffle_shufD.roundTrip runsShuffle_shufE scattered_undoneBy_gathered delay hready

/-! ### The pixels of a shuffled buffer (R105) -/

/-- Settles O41: of the two buffers one is gathered from the other through a bijection, the output from the input by `SHUF.E`,
the input from the output by `SHUF.D`. -/
theorem shuffleRearrangesPixels : Obligations.ShuffleRearrangesPixels := by
  intro s i hi hready
  have hperm := permutationOf_bijOn s.pixelCount s.seed
  simp only [List.mem_cons, List.not_mem_nil, or_false] at hi
  rcases hi with rfl | rfl
  · obtain ⟨t, hexec, -, -, hgathered⟩ := runsShuffle_shufE s hready
    exact ⟨t, hexec, pixelList_perm_of_gathered hperm hgathered⟩
  · obtain ⟨t, hexec, -, -, hscattered⟩ := runsShuffle_shufD s hready
    exact ⟨t, hexec, (pixelList_perm_of_gathered hperm hscattered).symm⟩

end Sys2Proof.Machine
end

section
/-! The driver's `transform` (45_transform_engine.md R117, R118, R121). On a block that takes the buffer it returns what its
command leaves in `DST` when `SRC`, `BUFLEN` and `SEED` hold the request. So decryption undoes encryption because the command
of the one direction undoes that of the other on its output. -/

namespace Sys2Proof.Machine

/-! ### The command a request selects (R115) -/

/-- The command of a request's operation, direction and `includeAlpha`. -/
def requestInstr : Operation → Direction → Bool → Option Instr
  | .xor, _, alpha => some (.xor alpha)
  | .add, .encrypt, alpha => some (.addE alpha)
  | .add, .decrypt, alpha => some (.addD alpha)
  | .shuffle, .encrypt, _ => some .shufE
  | .shuffle, .decrypt, _ => some .shufD
  | .unsupported _, _, _ => none

/-- The word of a request is one of its command's legal words (for `XOR` the direction is the ignored bit): a table of two flags
for each operation, checked row by row. -/
theorem requestWord_of_requestInstr {op : Operation} {direction : Direction} {alpha : Bool} {i : Instr}
    (h : requestInstr op direction alpha = some i) :
    ∃ w, requestWord op direction alpha = some w ∧ decode w = .legal i := by
  cases op with
  | unsupported => cases h
  | xor | add | shuffle =>
    refine ⟨_, rfl, decode_of_mem_legalWords ?_⟩
    cases direction <;> cases alpha <;> cases h <;> decide

/-- A request's command is a transform, so its check is that of the transforms. -/
theorem check_of_requestInstr {op : Operation} {direction : Direction} {alpha : Bool} {i : Instr}
    (h : requestInstr op direction alpha = some i) (s : State) : check i s = checkTransform s := by
  cases op with
  | unsupported => cases h
  | xor => cases h; rfl
  | add | shuffle => cases direction <;> cases h <;> rfl

/-! ### What `transform` returns -/

/-- A block that the host may use and that takes a buffer of `len` bytes (checks c3 and c4 of R117). -/
structure State.Takes (s : State) (len : Nat) : Prop where
  held : s.held = false
  capacity : legalCapacity s.maxPix
  whole : len % 4 = 0
  fits : len / 4 ≤ s.maxPix

/-- What a block takes depends on its capacity alone, once the host may use it. -/
theorem State.Takes.of_cap_eq {s t : State} {len : Nat} (h : s.Takes len) (hcap : t.cap = s.cap) (hheld : t.held = false) :
    t.Takes len := by
  have hmax : t.maxPix = s.maxPix := congrArg BitVec.toNat hcap
  exact ⟨hheld, hmax ▸ h.capacity, h.whole, hmax ▸ h.fits⟩

theorem State.Takes.len_le {s : State} {len : Nat} (h : s.Takes len) : len ≤ 4 * s.maxPix := by
  have hwhole := h.whole
  have hfits := h.fits
  omega

/-- `BUFLEN` can hold the length of every buffer that a block takes. -/
theorem State.Takes.len_lt {s : State} {len : Nat} (h : s.Takes len) : len < 2 ^ 32 := by
  have hle := h.len_le
  have hcapacity := h.capacity.2
  omega

/-- The operands of a transform are those of `transform`'s arguments (R117). -/
structure State.Loaded (s : State) (cap : Word) (buffer : List Byte) (seed : Word) : Prop where
  cap : s.cap = cap
  buflen : s.buflen = BitVec.ofNat 32 buffer.length
  seed : s.seed = seed
  src : ∀ k < buffer.length, s.readSrc k = buffer.getD k 0

theorem State.Loaded.buflen_toNat {s s₀ : State} {cap : Word} {buffer : List Byte} {seed : Word}
    (h : s.Loaded cap buffer seed) (htakes : s₀.Takes buffer.length) : s.buflen.toNat = buffer.length := by
  rw [h.buflen, BitVec.toNat_ofNat, Nat.mod_eq_of_lt htakes.len_lt]

theorem State.Loaded.transformReady {s s₀ : State} {buffer : List Byte} {seed : Word} (h : s.Loaded s₀.cap buffer seed)
    (htakes : s₀.Takes buffer.length) : s.transformReady := by
  rw [State.transformReady, h.buflen_toNat htakes, State.maxPix, h.cap]
  exact ⟨htakes.whole, htakes.fits⟩

/-- Two buffers of one length, loaded with one seed. -/
theorem State.Loaded.sameOperands {s t : State} {cap seed : Word} {a b : List Byte} (hs : s.Loaded cap a seed)
    (ht : t.Loaded cap b seed) (hlen : b.length = a.length) : SameOperands s t where
  seed := ht.seed.trans hs.seed.symm
  buflen := by rw [ht.buflen, hs.buflen, hlen]
  cap := ht.cap.trans hs.cap.symm

/-- The first `n` bytes of `DST`, as the driver returns them. -/
abbrev dstBytes (s : State) (n : Nat) : List Byte := (List.range n).map s.readDst

/-- A driver function's result on `s` is what command `i` leaves in `DST` of a state loaded with the arguments, and the block
then takes another buffer of that length. -/
def ReturnsOutput (i : Instr) (buffer : List Byte) (seed : Word) (s : State) (result : DriverResult (List Byte)) : Prop :=
  ∃ loaded t u : State, loaded.Loaded s.cap buffer seed ∧ exec i loaded = .next t ∧
    result = .returned (dstBytes t buffer.length) u ∧ u.Takes buffer.length ∧ u.cap = s.cap

theorem failOnError_statusDone {α : Type} (k : State → DriverResult α) (s : State) : failOnError statusDone k s = k s :=
  if_neg (by decide)

/-- The body of `transform` (R117, R119), for every delay of the block. -/
theorem runTransform_returnsOutput {s : State} {buffer : List Byte} {w : Word} {i : Instr} (delay : Nat) (seed : Word)
    (h : s.Takes buffer.length) (hw : decode w = .legal i) (hcheck : ∀ s, check i s = checkTransform s) :
    ReturnsOutput i buffer seed s (runTransform delay buffer seed w s) := by
  obtain ⟨m, hload, hm⟩ := loadBytes_src (bs := buffer) (a := 0) h.held ((Nat.zero_add _).trans_le h.len_le)
  let s₁ : State := { s with src := m, buflen := BitVec.ofNat 32 buffer.length, seed := seed }
  let loaded : State := { s₁ with cmd := w }
  have hloaded : loaded.Loaded s.cap buffer seed := ⟨rfl, rfl, rfl, fun k hk => by
    rw [State.readSrc, hm, if_pos (by omega), Option.getD_some, Nat.sub_zero]⟩
  have hexec := exec_of_accepted ((hcheck loaded).trans ((checkTransform_none_iff _).2 (hloaded.transformReady h)))
  set t := (procedure i loaded loaded.accept).complete
  have hcap : t.cap = s.cap := (sameOperands_procedure i loaded).cap
  have hreleased : t.released.held = false := held_released (busy_of_exec hexec)
  have htakes : t.released.Takes buffer.length := h.of_cap_eq hcap hreleased
  obtain ⟨r, hwait⟩ := commandAndWait_eq (s := s₁) delay (fetchBytes .dst 0 buffer.length) h.held hw hexec
  obtain ⟨r', hfetch⟩ := fetchBytes_dst (s := t.released.withWorld s.events r) (n := buffer.length) (a := 0) hreleased
    ((Nat.zero_add _).trans_le htakes.len_le)
  refine ⟨loaded, t, t.released.withWorld s.events r', hloaded, hexec, ?_, htakes.of_cap_eq rfl hreleased, hcap⟩
  calc runTransform delay buffer seed w s
    _ = (writeRegister .buflen (BitVec.ofNat 32 buffer.length) { s with src := m }).bind fun _ s =>
          (writeRegister .seed seed s).bind fun _ s => commandAndWait delay w (fetchBytes .dst 0 buffer.length) s := by
      rw [runTransform, if_neg h.len_lt.not_ge, List.take_of_length_le h.len_le, hload]
      rfl
    _ = commandAndWait delay w (fetchBytes .dst 0 buffer.length) s₁ := by
      rw [writeRegister_buflen (s := { s with src := m }) h.held]
      show (writeRegister .seed seed { s with src := m, buflen := _ }).bind _ = _
      rw [writeRegister_seed (s := { s with src := m, buflen := _ }) h.held]
      rfl
    _ = fetchBytes .dst 0 buffer.length (t.released.withWorld s.events r) := hwait.trans (failOnError_statusDone _ _)
    _ = .returned (dstBytes t buffer.length) (t.released.withWorld s.events r') := by
      rw [hfetch, ← List.range_eq_range']
      rfl

/-- `transform` on a request and a buffer that pass its checks. -/
theorem transform_returnsOutput {s : State} {buffer : List Byte} {req : Request} {i : Instr} (delay : Nat)
    (h : s.Takes buffer.length) (hi : requestInstr req.operation req.direction req.includeAlpha = some i)
    (hkey : req.operation = .shuffle → req.key ≠ []) :
    ReturnsOutput i buffer (deriveSeed req.key) s (transform delay buffer req s) := by
  obtain ⟨w, hword, hw⟩ := requestWord_of_requestInstr hi
  let s₁ : State := s.withWorld s.events (s.replies ++ [.word s.cap])
  have hbody : transform delay buffer req s = runTransform delay buffer (deriveSeed req.key) w s₁ := by
    unfold transform
    rw [hword]
    show (if req.operation = .shuffle ∧ req.key = [] then _ else _) = _
    rw [if_neg fun ⟨hop, hempty⟩ => hkey hop hempty, if_neg (not_not.2 h.whole), readRegister_eq h.held]
    exact if_neg (not_lt.2 h.fits)
  rw [hbody]
  exact runTransform_returnsOutput (s := s₁) delay (deriveSeed req.key) (h.of_cap_eq rfl h.held) hw (check_of_requestInstr hi)

/-! ### Decryption after encryption (R121) -/

/-- Command `j`, run with the operands of `i` on the output of `i`, leaves the input of `i`. -/
def CommandUndoneBy (i j : Instr) : Prop :=
  ∀ {s t s' t' : State}, s.transformReady → exec i s = .next t → SameOperands s s' →
    (∀ k < s.buflen.toNat, s'.readSrc k = t.readDst k) → exec j s' = .next t' →
    ∀ k < s.buflen.toNat, t'.readDst k = s.readSrc k

theorem RunsBytePass.undoneBy {i j : Instr} {f g : Byte → Byte → Byte} {alpha : Bool} (hi : RunsBytePass i f alpha)
    (hj : RunsBytePass j g alpha) (hgf : ∀ key b, g key (f key b) = b) : CommandUndoneBy i j := by
  intro s t s' t' hready hexec hsame hcopy hexec' k hk
  obtain ⟨d, hd, hread⟩ := hi.result hready
  obtain ⟨d', hd', hread'⟩ := hj.result (hsame.transformReady hready)
  cases hexec.symm.trans hd
  cases hexec'.symm.trans hd'
  have hkey : s'.key8 = s.key8 := by rw [State.key8, hsame.seed, State.key8]
  have hsrc : s'.readSrc k = byteOut (f s.key8) alpha s k := by
    rw [hcopy k hk, State.readDst, hread, if_pos hk, Option.getD_some]
  rw [State.readDst, hread', hsame.buflen, if_pos hk, Option.getD_some, hkey]
  exact byteOut_of_leftInverse (hgf s.key8) hsrc

theorem RunsShuffle.undoneBy {i j : Instr} {R S : Placement} (hi : RunsShuffle i R) (hj : RunsShuffle j S)
    (hundo : R.UndoneBy S) : CommandUndoneBy i j := by
  intro s t s' t' hready hexec hsame hcopy hexec'
  obtain ⟨_, hnext, -, -, hfirst⟩ := hi s hready
  obtain ⟨_, hnext', -, -, hsecond⟩ := hj s' (hsame.transformReady hready)
  cases hexec.symm.trans hnext
  cases hexec'.symm.trans hnext'
  rw [hsame.pixelCount, hsame.seed] at hsecond
  rw [← four_mul_pixelCount hready, ← samePixels_iff] at hcopy ⊢
  exact hundo (permutationOf_bijOn s.pixelCount s.seed) hfirst hcopy hsecond

/-- The command of ENCRYPT is undone by that of DECRYPT. -/
theorem exists_requestInstr_undoneBy {op : Operation} (hop : op ∈ [Operation.xor, .add, .shuffle]) (alpha : Bool) :
    ∃ i j : Instr, requestInstr op .encrypt alpha = some i ∧ requestInstr op .decrypt alpha = some j ∧ CommandUndoneBy i j := by
  simp only [List.mem_cons, List.not_mem_nil, or_false] at hop
  rcases hop with rfl | rfl | rfl
  · exact ⟨_, _, rfl, rfl, (runsBytePass_xor alpha).undoneBy (runsBytePass_xor alpha) byteXor_byteXor⟩
  · exact ⟨_, _, rfl, rfl, (runsBytePass_addE alpha).undoneBy (runsBytePass_addD alpha) byteSub_byteAdd⟩
  · exact ⟨_, _, rfl, rfl, runsShuffle_shufE.undoneBy runsShuffle_shufD gathered_undoneBy_scattered⟩

theorem dstBytes_getD {t : State} {n k : Nat} (hk : k < n) : (dstBytes t n).getD k 0 = t.readDst k := by
  simp [hk]

theorem dstBytes_eq {t : State} {buffer : List Byte} (h : ∀ k < buffer.length, t.readDst k = buffer.getD k 0) :
    dstBytes t buffer.length = buffer := by
  refine List.ext_getElem (by simp) fun k _ hk => ?_
  rw [List.getElem_map, List.getElem_range, h k hk, List.getD_eq_getElem _ _ hk]

/-- Settles O57: both calls load the same operands, the second with the output of the first as its source. -/
theorem decryptAfterEncrypt : Obligations.DecryptAfterEncrypt := by
  intro s d₁ d₂ buffer op key alpha hinv hheld hop hkey hwhole hfits
  obtain ⟨i, j, hi, hj, hundo⟩ := exists_requestInstr_undoneBy hop alpha
  have htakes : s.Takes buffer.length := ⟨hheld, hinv.capacity, hwhole, hfits⟩
  obtain ⟨s₁, t₁, t, hloaded, hexec, hencrypt, htakes', hcap⟩ :=
    transform_returnsOutput (req := ⟨op, .encrypt, key, alpha⟩) d₁ htakes hi hkey
  set out := dstBytes t₁ buffer.length
  have hlen : out.length = buffer.length := by simp [out]
  obtain ⟨s₂, t₂, u, hloaded', hexec', hdecrypt, -, -⟩ :=
    transform_returnsOutput (buffer := out) (req := ⟨op, .decrypt, key, alpha⟩) d₂ (hlen ▸ htakes') hj hkey
  rw [hcap] at hloaded'
  rw [hlen] at hdecrypt
  have hback : ∀ k < buffer.length, t₂.readDst k = s₁.readSrc k := by
    rw [← hloaded.buflen_toNat htakes]
    refine hundo (hloaded.transformReady htakes) hexec (hloaded.sameOperands hloaded' hlen) (fun k hk => ?_) hexec'
    rw [hloaded.buflen_toNat htakes] at hk
    rw [hloaded'.src k (by rwa [hlen]), dstBytes_getD hk]
  rw [dstBytes_eq fun k hk => (hback k hk).trans (hloaded.src k hk)] at hdecrypt
  exact ⟨out, t, u, hencrypt, hdecrypt⟩

end Sys2Proof.Machine
end

section
/-! Rejections (60_exceptions.md R132 to R135). Each cause is read off the check at issue (45_transform_engine.md R111), and a
rejected command leaves nothing but `STATUS` changed; an illegal word has no command to check and is rejected by its issue. -/

namespace Sys2Proof.Machine

/-! ### The cause each check gives -/

theorem checkTransform_eq_eLen4 {s : State} (h : s.buflen.toNat % 4 ≠ 0) : checkTransform s = some .eLen4 :=
  if_pos h

theorem checkTransform_eq_eCap {s : State} (hlen : s.buflen.toNat % 4 = 0) (hcap : s.buflen.toNat / 4 > s.cap.toNat) :
    checkTransform s = some .eCap :=
  (if_neg (not_not.2 hlen)).trans (if_pos hcap)

theorem checkLength_eq_eCap {s : State} (h : s.pn.toNat > s.cap.toNat) : checkLength s = some .eCap :=
  if_pos h

theorem checkPinv_eq_eCap {s : State} (h : s.pn.toNat > s.cap.toNat) : checkPinv s = some .eCap :=
  if_pos h

theorem permOutOfRange_of_entry {n i : Nat} {s : State} (hi : i < n) (h : n ≤ (s.readPerm i).toNat) :
    permOutOfRange n s = true :=
  List.any_eq_true.2 ⟨i, List.mem_range.2 hi, decide_eq_true h⟩

theorem checkPinv_eq_ePerm {s : State} (hcap : s.pn.toNat ≤ s.cap.toNat) {i : Nat} (hi : i < s.pn.toNat)
    (h : s.pn.toNat ≤ (s.readPerm i).toNat) : checkPinv s = some .ePerm :=
  (if_neg hcap.not_gt).trans (if_pos (permOutOfRange_of_entry hi h))

/-- The five transform commands have one check (R111). -/
theorem check_eq_checkTransform (s : State) {i : Instr} {alpha : Bool}
    (h : i ∈ [Instr.xor alpha, .addE alpha, .addD alpha, .shufE, .shufD]) : check i s = checkTransform s := by
  simp only [List.mem_cons, List.not_mem_nil, or_false] at h
  rcases h with rfl | rfl | rfl | rfl | rfl <;> rfl

/-! ### What a rejection leaves (R112) -/

/-- `exec_of_rejected` with `STATUS` as a number. -/
theorem exec_of_cause {i : Instr} {s : State} {e : ErrorCause} {v : Word} (h : check i s = some e)
    (hv : statusRejected e = v) : exec i s = .next { s with status := v } :=
  hv ▸ exec_of_rejected h

/-- A word that is no command is illegal for one of the decoder's reasons. -/
theorem exists_decode_illegal {w : Word} (h : ∀ i, decode w ≠ .legal i) : ∃ why, decode w = .illegal why := by
  cases hd : decode w with
  | legal i => exact absurd hd (h i)
  | illegal why => exact ⟨why, rfl⟩

/-- A write of an illegal word to `CMD`: the block stays idle, so its turn, if it comes, adds nothing (R52, R144). -/
theorem step_writeCmd_illegal {s : State} {w : Word} {why : IllegalWord} {turn : Bool} {rest : List Event}
    (hheld : s.held = false) (hevents : s.events = .host (.wr32 .reg 0x00 w) turn :: rest)
    (hdecode : decode w = .illegal why) :
    step s = .next { s with cmd := w, status := statusRejected .eOp, events := rest } := by
  have haccess := access_writeCmd (s := { s with events := rest }) hheld w
  rw [issue_illegal hdecode] at haccess
  rw [step_host hevents]
  exact hostEvent_idle turn haccess (statusBusyBit_rejected .eOp)

/-! ### The four causes -/

/-- Settles O9: a command is decoded only from R51's list, so any other word is illegal. -/
theorem illegalWordRejected : Obligations.IllegalWordRejected := by
  intro s w turn rest hheld hevents hw
  have hnone (i : Instr) : decode w ≠ .legal i := fun hi =>
    hw (List.mem_map_of_mem (f := Prod.fst) ((sixteenLegalWords w i).1 hi))
  obtain ⟨why, hdecode⟩ := exists_decode_illegal hnone
  rw [step_writeCmd_illegal hheld hevents hdecode, statusRejected_eOp]

/-- Settles O20: the check of `PINV` looks for an entry out of range and for nothing else beyond the capacity. -/
theorem entryOutOfRangeRejected : Obligations.EntryOutOfRangeRejected := by
  intro s hcap
  refine ⟨fun i hi hentry => ?_, fun hrange => ⟨_, exec_pinv hcap hrange, rfl⟩⟩
  exact exec_of_cause (checkPinv_eq_ePerm hcap hi hentry) statusRejected_ePerm

/-- Settles O18: the length is the first thing the check of a transform command looks at. -/
theorem lengthNotMultipleOf4Rejected : Obligations.LengthNotMultipleOf4Rejected := by
  intro s i alpha hi hlen
  exact exec_of_cause ((check_eq_checkTransform s hi).trans (checkTransform_eq_eLen4 hlen)) statusRejected_eLen4

/-- Settles O19: the capacity is the second thing that check looks at, and the first for `PBUILD` and `PINV`. -/
theorem overCapacityRejected : Obligations.OverCapacityRejected := by
  intro s
  refine ⟨fun i alpha hi hlen hcap => ?_, fun i hi hcap => ?_⟩
  · exact exec_of_cause ((check_eq_checkTransform s hi).trans (checkTransform_eq_eCap hlen hcap)) statusRejected_eCap
  · have hcheck : check i s = some .eCap := by
      simp only [List.mem_cons, List.not_mem_nil, or_false] at hi
      rcases hi with rfl | rfl
      · exact checkLength_eq_eCap hcap
      · exact checkPinv_eq_eCap hcap
    exact exec_of_cause hcheck statusRejected_eCap

end Sys2Proof.Machine
end

section
/-! Decoding and encoding (30_encoding.md R51, R53, R56). Both directions go through the list of a command's legal words. -/

namespace Sys2Proof

/-- The bits of a command word that are not ignored: all but `DIR` of `XOR` and `ALPHA` of the shuffles (R53). -/
def usedBits : Instr → Word
  | .xor _ => 0xFFFFFFEF
  | .shufE | .shufD => 0xFFFFFFDF
  | .addE _ | .addD _ | .ginit | .gnext | .pbuild | .pinv => 0xFFFFFFFF

/-- The encoding is each legal word with the ignored bit cleared. -/
theorem encode_eq_and_usedBits (i : Instr) : ∀ w ∈ legalWords i, encode i = w &&& usedBits i := by
  cases i with
  | xor alpha | addE alpha | addD alpha => cases alpha <;> simp [legalWords, encode, encodeFields, usedBits]
  | shufE | shufD | ginit | gnext | pbuild | pinv => simp [legalWords, encode, encodeFields, usedBits]

theorem decode_encode (i : Instr) : decode (encode i) = .legal i := by
  obtain ⟨-, hmem, -⟩ := encodingLegal i
  exact decode_of_mem_legalWords hmem

/-- Settles O3: the encoding is one of the command's legal words, and these differ from it in the ignored bit only. -/
theorem decodeEncodeAgree : Obligations.DecodeEncodeAgree := by
  refine ⟨fun i _ => decode_encode i, fun w i h => ?_⟩
  rw [encode_eq_and_usedBits i w (mem_legalWords_of_decode h)]
  cases i <;> rfl

/-- Settles O1: the legal ones stand in R51's list; of the illegal ones the decoder names the reason. -/
theorem writtenWordsDecode : Obligations.WrittenWordsDecode := by
  refine ⟨?_, ?_, ?_, ?_, ?_, ?_, by decide, by decide, by decide⟩ <;> exact decode_of_mem_legalWords (by decide)

end Sys2Proof
end

section
/-! The invariant of a legal state (10_state.md R12, R19 to R22, R37), kept by every step. Of a block that is not busy it says, beside
`STATUS`, only that the capacity and the memories are legal; what it says of a busy block is what lets its command run. -/

namespace Sys2Proof.Machine

/-! ### Legal memories -/

/-- The part of `State.Inv` that does not speak of `STATUS`: the capacity (R7) and the four memories (R19 to R22, R37). -/
structure State.Sound (s : State) : Prop where
  capacity : legalCapacity s.maxPix
  src : Memory.Good s.src (4 * s.maxPix)
  dst : Memory.Good s.dst (4 * s.maxPix)
  perm : Memory.Good s.perm s.maxPix
  inv : Memory.Good s.inv s.maxPix

theorem State.Inv.sound {s : State} (h : s.Inv) : s.Sound where
  capacity := h.capacity
  src := ⟨h.srcWf, h.srcWithin⟩
  dst := ⟨h.dstWf, h.dstWithin⟩
  perm := ⟨h.permWf, h.permWithin⟩
  inv := ⟨h.invWf, h.invWithin⟩

/-- The two busy conditions complete a sound state to a legal one. -/
theorem State.Sound.legal {s : State} (h : s.Sound) (hstatus : statusLegal s.status)
    (hcommand : s.busy = true → ∃ i, decode s.cmd = .legal i ∧ check i s = none)
    (hwaiting : s.busy = true → s.unread = true) : s.Inv where
  capacity := h.capacity
  status := hstatus
  srcWf := h.src.1
  dstWf := h.dst.1
  permWf := h.perm.1
  invWf := h.inv.1
  srcWithin := h.src.2
  dstWithin := h.dst.2
  permWithin := h.perm.2
  invWithin := h.inv.2
  command := hcommand
  waiting := hwaiting

theorem State.Sound.legal_of_not_busy {s : State} (h : s.Sound) (hstatus : statusLegal s.status) (hbusy : s.busy = false) :
    s.Inv :=
  h.legal hstatus (fun hb => absurd hb (by simp [hbusy])) (fun hb => absurd hb (by simp [hbusy]))

theorem statusLegal_idle : statusLegal statusIdle := by simp [statusLegal]

theorem statusLegal_busy : statusLegal statusBusy := by simp [statusLegal]

theorem statusLegal_done : statusLegal statusDone := by simp [statusLegal]

theorem statusLegal_rejected (e : ErrorCause) : statusLegal (statusRejected e) := by
  cases e <;> simp [statusLegal]

theorem check_withWorld (i : Instr) (s : State) (events : List Event) (replies : List Reply) :
    check i (s.withWorld events replies) = check i s := check_congr i rfl rfl rfl rfl rfl

/-- The invariant does not speak of the outside world's fields. -/
theorem State.Inv.withWorld {s : State} (h : s.Inv) (events : List Event) (replies : List Reply) :
    (s.withWorld events replies).Inv :=
  State.Sound.legal (s := s.withWorld events replies) ⟨h.capacity, h.sound.src, h.sound.dst, h.sound.perm, h.sound.inv⟩ h.status
    (fun hbusy => (h.command hbusy).imp fun _ hi => ⟨hi.1, (check_withWorld _ _ _ _).trans hi.2⟩) h.waiting

/-! ### Reset (R26, R150) -/

theorem legalCapacity_maxPix : legalCapacity Config.maxPix :=
  ⟨Nat.le_add_left 1 _, Nat.mod_lt Config.capacityPick (by decide)⟩

theorem resetWith_maxPix {n : Nat} (h : legalCapacity n) : (State.resetWith n).maxPix = n := by
  have hle := h.2
  exact Nat.mod_eq_of_lt (show n < 2 ^ 32 by omega)

theorem resetWith_legal {n : Nat} (h : legalCapacity n) : (State.resetWith n).Inv :=
  State.Sound.legal_of_not_busy
    ⟨(resetWith_maxPix h).symm ▸ h, Memory.good_nil _, Memory.good_nil _, Memory.good_nil _, Memory.good_nil _⟩ statusLegal_idle
    statusBusyBit_idle

theorem resetBlock_eq (s : State) : s.resetBlock =
    { cmd := 0, status := 0, seed := 0, buflen := 0, pn := 0, x := 0, cap := s.cap, src := [], dst := [], perm := [], inv := []
      events := s.events, replies := s.replies, resets := s.resets + 1, unread := false } := by
  simp [State.resetBlock, State.resetWith, State.maxPix]

theorem resetBlock_legal {s : State} (h : legalCapacity s.maxPix) : s.resetBlock.Inv := by
  rw [resetBlock_eq]
  exact State.Sound.legal_of_not_busy ⟨h, Memory.good_nil _, Memory.good_nil _, Memory.good_nil _, Memory.good_nil _⟩
    statusLegal_idle statusBusyBit_idle

/-- Settles O4: a legal capacity is a number of 32 bits, so `CAP` holds it. -/
theorem resetValues : Obligations.ResetValues :=
  ⟨rfl, legalCapacity_maxPix, fun _ hn => ⟨rfl, rfl, rfl, rfl, rfl, rfl, resetWith_maxPix hn,
    held_false_iff.2 ⟨statusBusyBit_idle, rfl⟩, fun _ => ⟨rfl, rfl, rfl, rfl⟩⟩⟩

/-- Settles O5: the open parameter is a legal capacity. -/
theorem resetStateLegal : Obligations.ResetStateLegal := resetWith_legal legalCapacity_maxPix

/-- Settles O6: the block's reset, after the event is taken. -/
theorem resetEventFromAnyState : Obligations.ResetEventFromAnyState := by
  intro s rest hevents
  rw [step_reset hevents, resetBlock_eq]
  rfl

/-! ### Commands and the block's turn -/

section Procedures
variable {n : Nat} {s : State} (h : s.Sound) (hn : n ≤ s.maxPix)
include h hn

theorem bytePass_sound (f : Byte → Byte) (alpha : Bool) : (bytePass f alpha n s).Sound := by
  have hdst : Memory.Good (bytePass f alpha n s).dst (4 * s.maxPix) := bytePass_good (Nat.mul_le_mul_left 4 hn) h.dst
  rw [bytePass_frame]
  exact ⟨h.capacity, h.src, hdst, h.perm, h.inv⟩

theorem build_sound : (build n s).Sound := by
  have hperm : Memory.Good (build n s).perm s.maxPix := build_good hn h.perm
  rw [build_frame]
  exact ⟨h.capacity, h.src, h.dst, hperm, h.inv⟩

theorem shuffleEncrypt_sound : (shuffleEncrypt n s).Sound := by
  obtain ⟨hperm, hdst⟩ := shuffleEncrypt_good hn h.perm h.dst
  rw [shuffleEncrypt_frame] at hperm hdst ⊢
  exact ⟨h.capacity, h.src, hdst, hperm, h.inv⟩

theorem shuffleDecrypt_sound (hlen : n ≤ 2 ^ 32) : (shuffleDecrypt n s).Sound := by
  obtain ⟨hperm, hinv, hdst⟩ := shuffleDecrypt_good hn hlen h.perm h.inv h.dst
  rw [shuffleDecrypt_frame] at hperm hinv hdst ⊢
  exact ⟨h.capacity, h.src, hdst, hperm, hinv⟩

theorem invert_sound (hrange : ∀ i < n, (s.readPerm i).toNat < n) : (invert n s).Sound := by
  have hinv : Memory.Good (invert n s).inv s.maxPix := invert_good (fun i hi => (hrange i hi).trans_le hn) h.inv
  rw [invert_frame]
  exact ⟨h.capacity, h.src, h.dst, h.perm, hinv⟩

end Procedures

/-- What the check of a command asks for keeps its procedure inside the memories (R37, R111). -/
theorem procedure_sound {i : Instr} {s : State} (h : s.Sound) (hcheck : check i s = none) : (procedure i s s.accept).Sound := by
  have haccept : s.accept.Sound := ⟨h.capacity, h.src, h.dst, h.perm, h.inv⟩
  cases i with
  | xor alpha | addE alpha | addD alpha =>
    exact bytePass_sound haccept ((checkTransform_none_iff s).1 hcheck).2 _ alpha
  | shufE => exact shuffleEncrypt_sound haccept ((checkTransform_none_iff s).1 hcheck).2
  | shufD => exact shuffleDecrypt_sound haccept ((checkTransform_none_iff s).1 hcheck).2 (pixelCount_le s)
  | ginit | gnext => exact ⟨h.capacity, h.src, h.dst, h.perm, h.inv⟩
  | pbuild => exact build_sound haccept ((checkLength_none_iff s).1 hcheck)
  | pinv =>
    obtain ⟨hcap, hrange⟩ := (checkPinv_none_iff s).1 hcheck
    exact invert_sound haccept hcap hrange

/-- A command ends in a legal state: rejected with `STATUS` changed only, or completed. -/
theorem exec_legal {i : Instr} {s t : State} (h : s.Sound) (hexec : exec i s = .next t) : t.Inv := by
  have hbusy : t.busy = false := busy_of_exec hexec
  rcases exec_cases i s with ⟨e, -, hreject⟩ | ⟨hcheck, hcomplete⟩
  · cases hexec.symm.trans hreject
    have hsound : (s.reject e).Sound := ⟨h.capacity, h.src, h.dst, h.perm, h.inv⟩
    exact hsound.legal_of_not_busy (statusLegal_rejected e) hbusy
  · cases hexec.symm.trans hcomplete
    have hp := procedure_sound h hcheck
    have hsound : (procedure i s s.accept).complete.Sound := ⟨hp.capacity, hp.src, hp.dst, hp.perm, hp.inv⟩
    exact hsound.legal_of_not_busy statusLegal_done hbusy

/-- Every command answers a next state. -/
theorem exists_exec_eq_next (i : Instr) (s : State) : ∃ t, exec i s = .next t := by
  rcases exec_cases i s with ⟨e, -, hexec⟩ | ⟨-, hexec⟩ <;> exact ⟨_, hexec⟩

/-- The block's turn leads from a legal state to a legal state: the word in `CMD` of a busy block is a command. -/
theorem blockTurn_legal {s : State} (h : s.Inv) : ∃ t, blockTurn s = .next t ∧ t.Inv := by
  cases hbusy : s.busy with
  | false => exact ⟨s, blockTurn_idle hbusy, h⟩
  | true =>
    obtain ⟨i, hdecode, -⟩ := h.command hbusy
    obtain ⟨t, hexec⟩ := exists_exec_eq_next i s
    exact ⟨t, (blockTurn_busy hbusy hdecode).trans hexec, exec_legal h.sound hexec⟩

/-! ### Host transactions -/

/-- An issue rejects the word, or accepts a command whose check passes and leaves a read of `STATUS` owed (R110 to R113). -/
theorem issue_legal {s : State} (h : s.Sound) (w : Word) : (issue w s).Inv := by
  have hrejected (e : ErrorCause) : State.Inv { s with cmd := w, status := statusRejected e } :=
    State.Sound.legal_of_not_busy ⟨h.capacity, h.src, h.dst, h.perm, h.inv⟩ (statusLegal_rejected e) (statusBusyBit_rejected e)
  cases hdecode : decode w with
  | illegal why =>
    rw [issue_illegal hdecode]
    exact hrejected .eOp
  | legal i =>
    cases hcheck : check i s with
    | some e =>
      rw [issue_rejected hdecode hcheck]
      exact hrejected e
    | none =>
      rw [issue_accepted hdecode hcheck]
      let t : State := { s with cmd := w, status := statusBusy, unread := true }
      have ht : check i t = none := (check_congr (s := s) (t := t) i rfl rfl rfl rfl rfl).trans hcheck
      exact State.Sound.legal (s := t) ⟨h.capacity, h.src, h.dst, h.perm, h.inv⟩ statusLegal_busy (fun _ => ⟨i, hdecode, ht⟩)
        (fun _ => rfl)

section Access
variable {s : State} (h : s.Sound)
include h

theorem writeSrc_sound {a : Nat} (ha : a < 4 * s.maxPix) (b : Byte) : (s.writeSrc a b).Sound :=
  ⟨h.capacity, Memory.good_write h.src ha b, h.dst, h.perm, h.inv⟩

theorem writeDst_sound {a : Nat} (ha : a < 4 * s.maxPix) (b : Byte) : (s.writeDst a b).Sound :=
  ⟨h.capacity, h.src, Memory.good_write h.dst ha b, h.perm, h.inv⟩

theorem writePerm_sound {i : Nat} (hi : i < s.maxPix) (w : Word) : (s.writePerm i w).Sound :=
  ⟨h.capacity, h.src, h.dst, Memory.good_write h.perm hi w, h.inv⟩

theorem writeInv_sound {i : Nat} (hi : i < s.maxPix) (w : Word) : (s.writeInv i w).Sound :=
  ⟨h.capacity, h.src, h.dst, h.perm, Memory.good_write h.inv hi w⟩

theorem writeSrcWord_sound {a : Nat} (ha : a + 3 < 4 * s.maxPix) (w : Word) : (s.writeSrcWord a w).Sound := by
  have h0 : a < 4 * s.maxPix := by omega
  have h1 : a + 1 < 4 * s.maxPix := by omega
  have h2 : a + 2 < 4 * s.maxPix := by omega
  exact writeSrc_sound (writeSrc_sound (writeSrc_sound (writeSrc_sound h h0 _) h1 _) h2 _) ha _

theorem writeDstWord_sound {a : Nat} (ha : a + 3 < 4 * s.maxPix) (w : Word) : (s.writeDstWord a w).Sound := by
  have h0 : a < 4 * s.maxPix := by omega
  have h1 : a + 1 < 4 * s.maxPix := by omega
  have h2 : a + 2 < 4 * s.maxPix := by omega
  exact writeDst_sound (writeDst_sound (writeDst_sound (writeDst_sound h h0 _) h1 _) h2 _) ha _

end Access

/-- A read by a host that owes no read of `STATUS` changes nothing. -/
theorem afterReadWord_of_held {s : State} (h : s.held = false) (sp : Space) (a : Nat) : s.afterReadWord sp a = s := by
  cases sp with
  | reg => simp [State.afterReadWord, afterStatusRead_of_held h]
  | src | dst | perm | inv => rfl

section Legal
variable {s : State} (h : s.Inv) (hheld : s.held = false)
include h hheld

/-- A store that leaves `STATUS` alone. -/
theorem State.Inv.of_store {t : State} (hsound : t.Sound) (hstatus : t.status = s.status) : t.Inv :=
  hsound.legal_of_not_busy (hstatus ▸ h.status) ((congrArg statusBusyBit hstatus).trans (busy_of_held hheld))

theorem writeReg_legal (r : RegName) (w : Word) : (s.writeReg r w).Inv := by
  obtain ⟨hcap, hsrc, hdst, hperm, hinv⟩ := h.sound
  cases r with
  | cmd => exact issue_legal h.sound w
  | seed | buflen | pn => exact h.of_store hheld ⟨hcap, hsrc, hdst, hperm, hinv⟩ rfl
  | status | x | cap => exact h

theorem writeWord_legal {sp : Space} {a : Nat} (w : Word) (hp : wordProvided s.maxPix sp a = true) :
    (s.writeWord sp a w).Inv := by
  cases sp with
  | reg =>
    obtain ⟨r, hr⟩ := Option.isSome_iff_exists.1 hp
    rw [State.writeWord, hr]
    exact writeReg_legal h hheld r w
  | src => exact h.of_store hheld (writeSrcWord_sound h.sound (of_decide_eq_true hp).2 w) rfl
  | dst => exact h.of_store hheld (writeDstWord_sound h.sound (of_decide_eq_true hp).2 w) rfl
  | perm | inv => exact h

theorem writeByte_legal {sp : Space} {a : Nat} (b : Byte) (hp : byteProvided s.maxPix sp a = true) :
    (s.writeByte sp a b).Inv := by
  cases sp with
  | src => exact h.of_store hheld (writeSrc_sound h.sound (of_decide_eq_true hp) b) rfl
  | dst => exact h.of_store hheld (writeDst_sound h.sound (of_decide_eq_true hp) b) rfl
  | reg | perm | inv => exact h

theorem writeEntry_legal {sp : Space} {i : Nat} (w : Word) (hp : entryProvided s.maxPix sp i = true) :
    (s.writeEntry sp i w).Inv := by
  cases sp with
  | perm => exact h.of_store hheld (writePerm_sound h.sound (of_decide_eq_true hp) w) rfl
  | inv => exact h.of_store hheld (writeInv_sound h.sound (of_decide_eq_true hp) w) rfl
  | reg | src | dst => exact h

theorem afterAccess_legal {t : Transaction} (hp : provided s.maxPix t = true) : (s.afterAccess t).Inv := by
  cases t with
  | rd32 sp a =>
    show (s.afterReadWord sp a).Inv
    rwa [afterReadWord_of_held hheld]
  | wr32 sp a w => exact writeWord_legal h hheld w hp
  | wr8 sp a b => exact writeByte_legal h hheld b hp
  | wre sp i w => exact writeEntry_legal h hheld w hp
  | rd8 | rde | rd16 | wr16 => exact h

end Legal

/-- A read of `STATUS` ends the wait only on a block that is not busy, so a busy block's host still owes one. -/
theorem afterStatusRead_legal {s : State} (h : s.Inv) : s.afterStatusRead.Inv := by
  cases hbusy : s.busy with
  | true => exact (afterStatusRead_busy hbusy).symm ▸ h
  | false =>
    obtain ⟨hcap, hsrc, hdst, hperm, hinv⟩ := h.sound
    rw [afterStatusRead_idle hbusy]
    exact State.Sound.legal_of_not_busy ⟨hcap, hsrc, hdst, hperm, hinv⟩ h.status hbusy

theorem access_ne_fault (t : Transaction) (s : State) (f : Fault) : access t s ≠ .fault f := by
  rcases access_cases t s with ⟨-, -, h⟩ | ⟨-, h⟩ | ⟨-, -, h⟩ <;> simp [h]

/-- A host transaction that is not refused keeps a legal state legal. -/
theorem access_legal {t : Transaction} {s u : State} (h : s.Inv) (haccess : access t s = .next u) : u.Inv := by
  rcases access_cases t s with ⟨-, -, hr⟩ | ⟨-, hr⟩ | ⟨hheld, hp, hn⟩
  · cases haccess.symm.trans hr
  · cases haccess.symm.trans hr
  · cases haccess.symm.trans hn
    cases hs : s.held with
    | false => exact (afterAccess_legal h hs hp).withWorld _ _
    | true =>
      cases hheld hs
      exact (afterStatusRead_legal h).withWorld _ _

/-! ### Every step -/

/-- A step from a legal state leads to a legal state, unless the host's next transaction is refused. -/
theorem step_of_legal {s : State} (h : s.Inv) :
    (∃ t, step s = .next t ∧ t.Inv) ∨
      ∃ (t : Transaction) (turn : Bool) (rest : List Event) (r : Refusal), s.events = .host t turn :: rest ∧
        step s = .refused r ∧ access t { s with events := rest } = .refused r := by
  cases hevents : s.events with
  | nil =>
    rw [step_nil hevents]
    exact .inl (blockTurn_legal h)
  | cons e rest =>
    have hlegal : State.Inv { s with events := rest } := h.withWorld rest s.replies
    cases e with
    | reset => exact .inl ⟨_, step_reset hevents, resetBlock_legal hlegal.capacity⟩
    | host t turn =>
      rw [step_host hevents]
      cases haccess : access t { s with events := rest } with
      | refused r => exact .inr ⟨t, turn, rest, r, rfl, hostEvent_refused turn haccess, haccess⟩
      | fault f => exact absurd haccess (access_ne_fault t _ f)
      | next u =>
        have hu := access_legal hlegal haccess
        rw [hostEvent_next turn haccess]
        cases turn with
        | false => exact .inl ⟨u, rfl, hu⟩
        | true => exact .inl (blockTurn_legal hu)

/-- Settles O13: of the two ways a step from a legal state can go, one is refused and answers no next state. -/
theorem stepKeepsInvariant : Obligations.StepKeepsInvariant := by
  intro s t h hstep
  rcases step_of_legal h with ⟨u, hnext, hu⟩ | ⟨_, _, _, _, -, hrefused, -⟩
  · cases hstep.symm.trans hnext
    exact hu
  · cases hstep.symm.trans hrefused

/-- Settles O14: neither of those two ways is a fault. -/
theorem legalStateNeverFaults : Obligations.LegalStateNeverFaults := by
  intro s f h hstep
  rcases step_of_legal h with ⟨_, hnext, -⟩ | ⟨_, _, _, _, -, hrefused, -⟩
  · cases hstep.symm.trans hnext
  · cases hstep.symm.trans hrefused

theorem refusalOf_cases (t : Transaction) : refusalOf t = .notProvided ∨ refusalOf t = .reservedRegister := by
  unfold refusalOf
  split
  · split <;> simp
  · split <;> simp
  · exact .inl rfl

/-- Settles O15: the refusal is the transaction's, and the host of a busy block owes a read of `STATUS`. -/
theorem onlyHostMovesRefused : Obligations.OnlyHostMovesRefused := by
  intro s r h hstep
  rcases step_of_legal h with ⟨_, hnext, -⟩ | ⟨t, turn, rest, r', hevents, hrefused, haccess⟩
  · cases hstep.symm.trans hnext
  · cases hstep.symm.trans hrefused
    refine ⟨t, turn, rest, hevents, ?_⟩
    rcases access_cases t { s with events := rest } with ⟨hheld, ht, hr⟩ | ⟨hp, hr⟩ | ⟨-, -, hn⟩
    · cases haccess.symm.trans hr
      have hunread : s.unread = true := (Bool.or_eq_true_iff.1 hheld).elim h.waiting id
      exact .inl ⟨hunread, ht, rfl⟩
    · cases haccess.symm.trans hr
      exact .inr ⟨hp, refusalOf_cases t⟩
    · cases haccess.symm.trans hn

end Sys2Proof.Machine
end

section
/-! Issue and the block's turn (45_transform_engine.md R110 to R114, R123). A write to `CMD` by a host that owes no read is the
issue of the word; the block's turn, at once or after some reads of `STATUS`, is `exec` of the command. -/

namespace Sys2Proof.Machine

/-! ### What a command leaves alone -/

/-- A command's next state, field by field: `X`, `DST`, `PERM` and `INV` are the only ones it can write beside `STATUS` and the
read owed. -/
theorem exec_frame {i : Instr} {s t : State} (h : exec i s = .next t) :
    t = { s with x := t.x, dst := t.dst, perm := t.perm, inv := t.inv, status := t.status
                 unread := s.unread || (check i s).isNone } := by
  rcases exec_cases i s with ⟨e, hcheck, hexec⟩ | ⟨hcheck, hexec⟩
  · cases h.symm.trans hexec
    rw [hcheck]
    simp [State.reject]
  · cases h.symm.trans hexec
    rw [hcheck, procedure_frame]
    simp [State.complete, State.accept]

/-- `STATUS` after a command. -/
def statusAfter : Option ErrorCause → Word
  | some e => statusRejected e
  | none => statusDone

theorem exec_status_eq {i : Instr} {s t : State} (h : exec i s = .next t) : t.status = statusAfter (check i s) := by
  rcases exec_cases i s with ⟨e, hcheck, hexec⟩ | ⟨hcheck, hexec⟩ <;> cases h.symm.trans hexec <;> rw [hcheck] <;> rfl

theorem exec_events {i : Instr} {s t : State} (h : exec i s = .next t) : t.events = s.events := by
  rw [exec_frame h]

/-- Settles O16: a command has a next state, and `exec_frame` lists what that keeps. -/
theorem commandsKeepCmdSeedBuflenPnCapSrc : Obligations.CommandsKeepCmdSeedBuflenPnCapSrc := by
  intro i s
  obtain ⟨t, hexec⟩ := exists_exec_eq_next i s
  refine ⟨t, hexec, ?_, ?_⟩
  · rw [exec_status_eq hexec]
    cases check i s <;> rfl
  · rw [exec_frame hexec]
    exact ⟨rfl, rfl, rfl, rfl, rfl, rfl, rfl, rfl, rfl, rfl⟩

/-! ### A write to `CMD` -/

/-- The step that writes `w` to `CMD`: its issue, then the block's turn or not. -/
theorem step_writeCmd {s : State} {w : Word} {turn : Bool} {rest : List Event} (hheld : s.held = false)
    (hevents : s.events = .host (.wr32 .reg 0x00 w) turn :: rest) :
    step s = if turn then blockTurn (issue w { s with events := rest }) else .next (issue w { s with events := rest }) := by
  rw [step_host hevents, hostEvent_next turn (access_writeCmd (s := { s with events := rest }) hheld w)]

/-- On a block that is not busy it makes no difference whether its turn follows (R144). -/
theorem turn_of_not_busy {s : State} (turn : Bool) (h : s.busy = false) : (if turn then blockTurn s else .next s) = .next s := by
  rw [blockTurn_idle h, ite_self]

/-- Settles O7: issue, then the turn at once. -/
theorem stepRunsDecodedCommand : Obligations.StepRunsDecodedCommand := by
  intro s w i rest hheld hevents hdecode
  rw [step_writeCmd hheld hevents]
  exact blockTurn_issue hdecode _

theorem decode_of_decodeTableWord {nbits w : Nat} {i : Instr} (h : decodeTableWord nbits w = some i) :
    decode (BitVec.ofNat 32 (w % 2 ^ nbits)) = .legal i := by
  unfold decodeTableWord at h
  split at h
  · exact Decoded.instr?_eq_some_iff.1 h
  · cases h

/-- The host may use the block that a word is placed on: the placing drops a command in progress and a read owed. -/
theorem withCommand_held (s : State) (w : Word) : (s.withCommand w).held = false := by
  refine held_false_iff.2 ⟨?_, rfl⟩
  show statusBusyBit (if s.busy then statusIdle else s.status) = false
  split
  · exact statusBusyBit_idle
  · next hbusy => exact eq_false_of_ne_true hbusy

/-- Settles O8: the placed word is the next write to `CMD`, and `exec` does not read the `STATUS` that the placing set. -/
theorem placedWordRuns : Obligations.PlacedWordRuns := by
  intro s nbits w i h
  rw [State.withFetchWord, stepRunsDecodedCommand _ _ i s.events (withCommand_held s _) rfl (decode_of_decodeTableWord h)]
  exact exec_status i { s with cmd := BitVec.ofNat 32 (w % 2 ^ nbits), unread := false } _

theorem check_events (i : Instr) (s : State) (events : List Event) : check i { s with events := events } = check i s :=
  check_withWorld i s events s.replies

/-- An accepted issue whose block turn has not come. -/
theorem step_writeCmd_accepted {s : State} {w : Word} {i : Instr} {rest : List Event} (hheld : s.held = false)
    (hdecode : decode w = .legal i) (hcheck : check i s = none)
    (hevents : s.events = .host (.wr32 .reg 0x00 w) false :: rest) :
    step s = .next { s with cmd := w, status := statusBusy, unread := true, events := rest } := by
  rw [step_writeCmd hheld hevents, issue_accepted hdecode ((check_events i s rest).trans hcheck), if_neg (by decide)]

/-- Settles O10: an accepted issue leaves the block busy; a rejected one leaves it idle, so a turn after it adds nothing. -/
theorem legalIssueIsBusyOrRejected : Obligations.LegalIssueIsBusyOrRejected := by
  intro s w i rest hheld hdecode
  refine ⟨fun hcheck hevents => ?_, fun e turn hcheck hevents => ?_⟩
  · rw [step_writeCmd_accepted hheld hdecode hcheck hevents, statusBusy_eq]
  · let t : State := { s with cmd := w, status := statusRejected e, events := rest }
    rw [step_writeCmd hheld hevents, issue_rejected hdecode ((check_events i s rest).trans hcheck),
      turn_of_not_busy (s := t) turn (statusBusyBit_rejected e)]
    cases e <;> rfl

/-- Settles O11: with no event a step is the block's turn. -/
theorem blockTurnRunsCommand : Obligations.BlockTurnRunsCommand := by
  refine ⟨fun s i hevents hbusy hdecode => ?_, fun s hevents hbusy => ?_⟩
  · rw [step_nil hevents, blockTurn_busy hbusy hdecode]
  · rw [step_nil hevents, blockTurn_idle hbusy]

/-- An issue does not read the `STATUS` it overwrites (R140). -/
theorem issue_status (w v : Word) (s : State) : issue w { s with status := v } = issue w s := by
  cases hdecode : decode w with
  | illegal why => rw [issue_illegal hdecode, issue_illegal hdecode]
  | legal i =>
    have hcheck' : check i { s with status := v } = check i s :=
      check_congr (s := s) (t := { s with status := v }) i rfl rfl rfl rfl rfl
    cases hcheck : check i s with
    | some e => rw [issue_rejected hdecode hcheck, issue_rejected hdecode (hcheck'.trans hcheck)]
    | none => rw [issue_accepted hdecode hcheck, issue_accepted hdecode (hcheck'.trans hcheck)]

/-- The block's turn after an issue finds a command in `CMD` or nothing to do. -/
theorem exists_blockTurn_issue (w : Word) (s : State) : ∃ t, blockTurn (issue w s) = .next t := by
  cases hdecode : decode w with
  | illegal why =>
    rw [issue_illegal hdecode]
    exact ⟨_, blockTurn_idle (statusBusyBit_rejected .eOp)⟩
  | legal i =>
    rw [blockTurn_issue hdecode]
    exact exists_exec_eq_next i _

/-- A write to `CMD` by a host that owes no read always answers a next state. -/
theorem exists_step_writeCmd {s : State} {w : Word} {turn : Bool} {rest : List Event} (hheld : s.held = false)
    (hevents : s.events = .host (.wr32 .reg 0x00 w) turn :: rest) : ∃ t, step s = .next t := by
  rw [step_writeCmd hheld hevents]
  cases turn with
  | false => exact ⟨_, rfl⟩
  | true => exact exists_blockTurn_issue w _

/-- Settles O17: the issue is the same whatever `STATUS` it overwrites. -/
theorem issueOverwritesStatus : Obligations.IssueOverwritesStatus := by
  intro s w v turn rest hheld hv hevents
  have hheld' : State.held { s with status := v } = false := held_false_iff.2 ⟨hv, (held_false_iff.1 hheld).2⟩
  have hissue := issue_status w v { s with events := rest }
  refine ⟨?_, exists_step_writeCmd hheld hevents⟩
  rw [step_writeCmd hheld hevents, step_writeCmd hheld' hevents, hissue]

/-! ### A command that stays busy (R42, R43) -/

/-- Reads of `STATUS` that find the block busy take their events and add their replies, and do nothing else. -/
theorem run_replicate_readStatus (k m : Nat) {s : State} (hstatus : s.status = statusBusy) (rest : List Event)
    (replies : List Reply) :
    Host.Core.run Sys2Proof.core (k + m) (s.withWorld (List.replicate k (.host readStatus false) ++ rest) replies) =
      Host.Core.run Sys2Proof.core m (s.withWorld rest (replies ++ List.replicate k (.word statusBusy))) := by
  induction k generalizing replies with
  | zero => simp
  | succ k ih =>
    have hbusy : s.busy = true := busy_of_status_busy hstatus
    let u := s.withWorld (.host readStatus false :: (List.replicate k (.host readStatus false) ++ rest)) replies
    have hstep : step u =
        .next (s.withWorld (List.replicate k (.host readStatus false) ++ rest) (replies ++ [.word statusBusy])) := by
      rw [step_readStatus (s := u) rfl, afterStatusRead_busy (s := u) hbusy, ← hstatus]
      rfl
    rw [Nat.succ_add, List.replicate_succ, List.cons_append, run_succ hstep, ih, List.append_assoc]
    rfl

/-- The read of `STATUS` after which the block completes its command. -/
theorem step_readStatus_completes {s t : State} {i : Instr} {rest : List Event} (hbusy : s.busy = true)
    (hdecode : decode s.cmd = .legal i) (hexec : exec i s = .next t) (hevents : s.events = .host readStatus true :: rest) :
    step s = .next (t.withWorld rest (s.replies ++ [.word s.status])) := by
  let logged := s.withWorld rest (s.replies ++ [.word s.status])
  have hturn : blockTurn logged = exec i logged := blockTurn_busy hbusy hdecode
  rw [step_readStatus hevents, afterStatusRead_busy hbusy, if_pos rfl, hturn]
  exact exec_withWorld rest (s.replies ++ [.word s.status]) hexec

/-- Settles O12: the issue leaves the block busy, `k` reads leave it as it was, and the turn after the last runs the command,
which reads neither the replies nor whether the acceptance is already in the state. -/
theorem delayedCommandEqualsPrompt : Obligations.DelayedCommandEqualsPrompt := by
  intro s w i k rest hheld hdecode hcheck hevents
  let issued : State := { s with cmd := w, events := rest }
  have hcheck' : check i issued = none := (check_congr (s := s) (t := issued) i rfl rfl rfl rfl rfl).trans hcheck
  obtain ⟨t, hexec⟩ := exists_exec_eq_next i issued
  have haccepted : exec i issued.accept = .next t := (exec_accept hcheck').trans hexec
  let replies := s.replies ++ List.replicate k (Reply.word statusBusy)
  let reading := issued.accept.withWorld (.host readStatus true :: rest) replies
  have hissue : step s =
      .next (issued.accept.withWorld (List.replicate k (.host readStatus false) ++ .host readStatus true :: rest) s.replies) :=
    step_writeCmd_accepted hheld hdecode hcheck hevents
  have hturn : step reading = .next (t.withWorld rest (replies ++ [.word statusBusy])) :=
    step_readStatus_completes (s := reading) (t := t.withWorld reading.events replies) statusBusyBit_busy hdecode
      (exec_withWorld _ _ haccepted) rfl
  have hrest : t.events = rest := exec_events hexec
  refine ⟨t, hexec, ?_⟩
  rw [run_succ hissue, run_replicate_readStatus k 1 rfl, run_succ hturn, run_zero, List.append_assoc,
    ← List.replicate_succ', hrest]
  rfl

end Sys2Proof.Machine
end

section
/-! The host's transactions (20_memory.md R32, R33, R36, 10_state.md R10) and `WAIT` (30_encoding.md R56). A provided transaction
of a host that owes no read of `STATUS` is one step, and, unless it writes `CMD`, a block's turn after it adds nothing. -/

namespace Sys2Proof.Machine

/-! ### Registers and their offsets (R10) -/

theorem regAt_eq_some_iff {a : Nat} {r : RegName} : regAt a = some r ↔ a = regOffset r := by
  unfold regAt
  cases r <;> grind [regOffset]

theorem regAt_regOffset (r : RegName) : regAt (regOffset r) = some r := regAt_eq_some_iff.2 rfl

theorem regAt_isSome_iff {a : Nat} : (regAt a).isSome = true ↔ a ∈ [0x00, 0x04, 0x08, 0x0C, 0x10, 0x14, 0x18] := by
  unfold regAt
  grind

/-! ### One transaction, one step -/

section Access
variable {s : State} {t : Transaction} {turn : Bool} {rest : List Event} (hheld : s.held = false)
  (hevents : s.events = .host t turn :: rest)
include hheld hevents

/-- A provided transaction that leaves the block idle. -/
theorem step_of_provided (hp : provided s.maxPix t = true)
    (hbusy : (State.afterAccess { s with events := rest } t).busy = false) :
    step s = .next ((State.afterAccess { s with events := rest } t).logReply (State.replyTo { s with events := rest } t)) := by
  rw [step_host hevents]
  exact hostEvent_idle turn (access_provided (s := { s with events := rest }) hheld hp) hbusy

/-- A provided write to anything but `CMD`. -/
theorem step_of_write (hp : provided s.maxPix t = true)
    (hbusy : (State.afterAccess { s with events := rest } t).busy = false)
    (hreply : State.replyTo { s with events := rest } t = none) :
    step s = .next (State.afterAccess { s with events := rest } t) := by
  rw [step_of_provided hheld hevents hp hbusy, hreply, logReply_none]

theorem step_of_not_provided (hp : provided s.maxPix t = false) : step s = .refused (refusalOf t) := by
  rw [step_host hevents]
  exact hostEvent_refused turn (access_not_provided (s := { s with events := rest }) hheld hp)

end Access

/-- Nothing a host does but a write to `CMD` makes the block busy. -/
theorem afterAccess_not_busy {s : State} (hheld : s.held = false) {t : Transaction} (ht : ∀ w, t ≠ .wr32 .reg 0x00 w) :
    (s.afterAccess t).busy = false := by
  have hbusy : s.busy = false := busy_of_held hheld
  cases t with
  | rd32 sp a => rwa [State.afterAccess, afterReadWord_of_held hheld]
  | wr32 sp a w =>
    cases sp with
    | reg =>
      cases hr : regAt a with
      | none => simpa [State.afterAccess, State.writeWord, hr] using hbusy
      | some r =>
        rw [State.afterAccess, State.writeWord, hr]
        cases r with
        | cmd => exact absurd (congrArg (Transaction.wr32 .reg · w) (regAt_eq_some_iff.1 hr)) (ht w)
        | status | seed | buflen | pn | x | cap => exact hbusy
    | src | dst | perm | inv => exact hbusy
  | wr8 sp a b => cases sp <;> exact hbusy
  | wre sp i w => cases sp <;> exact hbusy
  | rd8 | rde | rd16 | wr16 => exact hbusy

theorem exists_step_of_provided {s : State} {t : Transaction} {turn : Bool} {rest : List Event} (hheld : s.held = false)
    (hevents : s.events = .host t turn :: rest) (hp : provided s.maxPix t = true) : ∃ u, step s = .next u := by
  by_cases ht : ∃ w, t = .wr32 .reg 0x00 w
  · obtain ⟨w, rfl⟩ := ht
    exact exists_step_writeCmd hheld hevents
  · exact ⟨_, step_of_provided hheld hevents hp (afterAccess_not_busy (s := { s with events := rest }) hheld (not_exists.1 ht))⟩

/-! ### Which transactions the host may make (R33, R153) -/

/-- Settles O43: whether the host may use the block is the first thing an access looks at. -/
theorem hostRefusedUntilBusyReadZero : Obligations.HostRefusedUntilBusyReadZero := by
  intro s t turn rest hwait ht hevents
  have hheld : s.held = true := Bool.or_eq_true_iff.2 hwait
  rw [step_host hevents]
  exact hostEvent_refused turn (access_held (s := { s with events := rest }) hheld ht)

/-- Settles O44: a read of `STATUS` is provided in every state. -/
theorem statusReadAlwaysAllowed : Obligations.StatusReadAlwaysAllowed := by
  intro s rest hevents
  rw [step_readStatus hevents]
  refine ⟨fun hbusy => ?_, fun hbusy => ?_⟩
  · rw [afterStatusRead_busy hbusy]
    rfl
  · rw [afterStatusRead_idle hbusy]
    rfl

/-- Settles O46: the table of R33, row by row. -/
theorem providedTransactions : Obligations.ProvidedTransactions := by
  intro s t turn rest hheld hevents isReg isWord allowed
  have hiff : allowed ↔ provided s.maxPix t = true := by
    cases t with
    | rd32 sp | wr32 sp =>
      cases sp with
      | reg => exact regAt_isSome_iff.symm
      | src | dst => exact decide_eq_true_iff.symm
      | perm | inv => exact iff_of_false id Bool.false_ne_true
    | rd8 sp | wr8 sp =>
      cases sp with
      | src | dst => exact decide_eq_true_iff.symm
      | reg | perm | inv => exact iff_of_false id Bool.false_ne_true
    | rde sp | wre sp =>
      cases sp with
      | perm | inv => exact decide_eq_true_iff.symm
      | reg | src | dst => exact iff_of_false id Bool.false_ne_true
    | rd16 | wr16 => exact iff_of_false id Bool.false_ne_true
  refine ⟨fun hallowed => exists_step_of_provided hheld hevents (hiff.1 hallowed), fun hnot => ?_⟩
  rw [step_of_not_provided hheld hevents (eq_false_of_ne_true (mt hiff.2 hnot))]
  exact (refusalOf_cases t).imp (congrArg _) (congrArg _)

/-- Settles O47: no register has such an offset. -/
theorem reservedRegistersRefused : Obligations.ReservedRegistersRefused := by
  intro s a w t turn rest hheld ht haligned hlow hhigh hevents
  have hregister : (regAt a).isSome = false := by
    rw [Bool.eq_false_iff, ne_eq, regAt_isSome_iff]
    simp only [List.mem_cons, List.not_mem_nil, or_false]
    omega
  have hreserved : reservedOffset a = true := decide_eq_true ⟨haligned, hlow, Nat.lt_succ_of_le hhigh⟩
  simp only [List.mem_cons, List.not_mem_nil, or_false] at ht
  rcases ht with rfl | rfl
  · rw [step_of_not_provided hheld hevents hregister, refusalOf, if_pos hreserved]
  · rw [step_of_not_provided hheld hevents hregister, refusalOf, if_pos hreserved]

/-! ### Registers (R10, R36) -/

theorem step_readRegister {s : State} {turn : Bool} {rest : List Event} (hheld : s.held = false) (r : RegName)
    (hevents : s.events = .host (.rd32 .reg (regOffset r)) turn :: rest) :
    step s = .next { s with events := rest, replies := s.replies ++ [.word (s.readReg r)] } := by
  have hp : provided s.maxPix (.rd32 .reg (regOffset r)) = true := by simp [provided, wordProvided, regAt_regOffset]
  let s' : State := { s with events := rest }
  have hsame : s'.afterAccess (.rd32 .reg (regOffset r)) = s' := afterReadWord_of_held (s := s') hheld .reg _
  have hreply : s'.replyTo (.rd32 .reg (regOffset r)) = some (.word (s.readReg r)) := by
    simp only [State.replyTo, State.readWord, regAt_regOffset]
    cases r <;> rfl
  rw [step_of_provided hheld hevents hp (hsame.symm ▸ busy_of_held hheld), hsame, hreply]
  rfl

/-- Settles O48: the table lists each register with its offset. -/
theorem registerReadsReturnValue : Obligations.RegisterReadsReturnValue := by
  intro s a v turn rest hheld hregister hevents
  simp only [List.mem_cons, List.not_mem_nil, or_false, Prod.mk.injEq] at hregister
  rcases hregister with ⟨rfl, rfl⟩ | ⟨rfl, rfl⟩ | ⟨rfl, rfl⟩ | ⟨rfl, rfl⟩ | ⟨rfl, rfl⟩ | ⟨rfl, rfl⟩ | ⟨rfl, rfl⟩
  · exact step_readRegister hheld .cmd hevents
  · exact step_readRegister hheld .status hevents
  · exact step_readRegister hheld .seed hevents
  · exact step_readRegister hheld .buflen hevents
  · exact step_readRegister hheld .pn hevents
  · exact step_readRegister hheld .x hevents
  · exact step_readRegister hheld .cap hevents

/-- A write of any register but `CMD`. -/
theorem step_writeRegister {s : State} {turn : Bool} {rest : List Event} (hheld : s.held = false) {r : RegName} (hr : r ≠ .cmd)
    {w : Word} (hevents : s.events = .host (.wr32 .reg (regOffset r) w) turn :: rest) :
    step s = .next (State.writeReg { s with events := rest } r w) := by
  have hp : provided s.maxPix (.wr32 .reg (regOffset r) w) = true := by simp [provided, wordProvided, regAt_regOffset]
  have hwrite : State.afterAccess { s with events := rest } (.wr32 .reg (regOffset r) w) =
      State.writeReg { s with events := rest } r w := by
    simp only [State.afterAccess, State.writeWord, regAt_regOffset]
  have hbusy : (State.writeReg { s with events := rest } r w).busy = false := by
    cases r with
    | cmd => exact absurd rfl hr
    | status | seed | buflen | pn | x | cap => exact busy_of_held hheld
  rw [step_of_write hheld hevents hp (hwrite ▸ hbusy) rfl, hwrite]

/-- Settles O49: the model's register write, `CMD` left out. -/
theorem registerWritesStore : Obligations.RegisterWritesStore := by
  intro s w turn rest hheld
  refine ⟨step_writeRegister (r := .seed) hheld (by decide), step_writeRegister (r := .buflen) hheld (by decide),
    step_writeRegister (r := .pn) hheld (by decide), fun a ha hevents => ?_⟩
  simp only [List.mem_cons, List.not_mem_nil, or_false] at ha
  rcases ha with rfl | rfl | rfl
  · exact step_writeRegister (r := .status) hheld (by decide) hevents
  · exact step_writeRegister (r := .x) hheld (by decide) hevents
  · exact step_writeRegister (r := .cap) hheld (by decide) hevents

/-! ### Memories (R19 to R22, R32) -/

/-- Settles O50: each is a provided transaction, and a write of a memory changes one location. -/
theorem memoryAccessesStoreAndReturn : Obligations.MemoryAccessesStoreAndReturn := by
  intro s a b w turn rest hheld
  have hbusy : s.busy = false := busy_of_held hheld
  refine ⟨fun ha => ?_, fun ha => ?_⟩
  · have hp : decide (a < 4 * s.maxPix) = true := decide_eq_true ha
    exact ⟨fun hevents => step_of_provided hheld hevents hp hbusy, fun hevents => step_of_provided hheld hevents hp hbusy,
      fun hevents => ⟨_, step_of_write hheld hevents hp hbusy rfl, Memory.read_write _ _ _⟩,
      fun hevents => ⟨_, step_of_write hheld hevents hp hbusy rfl, Memory.read_write _ _ _⟩⟩
  · have hp : decide (a < s.maxPix) = true := decide_eq_true ha
    exact ⟨fun hevents => step_of_provided hheld hevents hp hbusy, fun hevents => step_of_provided hheld hevents hp hbusy,
      fun hevents => ⟨_, step_of_write hheld hevents hp hbusy rfl, Memory.read_write _ _ _⟩,
      fun hevents => ⟨_, step_of_write hheld hevents hp hbusy rfl, Memory.read_write _ _ _⟩⟩

theorem byteOfWord_eq_ofNat (w : Word) (k : Nat) : byteOfWord w k = BitVec.ofNat 8 (w.toNat / 2 ^ (8 * k)) := by
  apply BitVec.eq_of_toNat_eq
  simp [byteOfWord, BitVec.extractLsb'_toNat, Nat.shiftRight_eq_div_pow]

/-- The four bytes of a word at `a`, the lowest first (R32). -/
def Memory.writeWord (m : Memory Byte) (a : Nat) (w : Word) : Memory Byte :=
  Memory.write (Memory.write (Memory.write (Memory.write m a (byteOfWord w 0)) (a + 1) (byteOfWord w 1)) (a + 2) (byteOfWord w 2))
    (a + 3) (byteOfWord w 3)

theorem Memory.read_writeWord (m : Memory Byte) (a : Nat) (w : Word) (k : Nat) :
    Memory.read (Memory.writeWord m a w) k =
      if a ≤ k ∧ k ≤ a + 3 then some (BitVec.ofNat 8 (w.toNat / 2 ^ (8 * (k - a)))) else Memory.read m k := by
  by_cases hk : a ≤ k ∧ k ≤ a + 3
  · obtain ⟨c, rfl⟩ := Nat.exists_eq_add_of_le hk.1
    rw [if_pos hk, Nat.add_sub_cancel_left, ← byteOfWord_eq_ofNat]
    have hc : c < 4 := by omega
    interval_cases c <;> simp [Memory.writeWord]
  · have hother : k ≠ a + 3 ∧ k ≠ a + 2 ∧ k ≠ a + 1 ∧ k ≠ a := by omega
    obtain ⟨h3, h2, h1, h0⟩ := hother
    simp only [Memory.writeWord, Memory.read_write, if_neg hk, if_neg h3, if_neg h2, if_neg h1, if_neg h0]

theorem wordOfBytes_toNat (b0 b1 b2 b3 : Byte) :
    (wordOfBytes b0 b1 b2 b3).toNat = b0.toNat + b1.toNat * 2 ^ 8 + b2.toNat * 2 ^ 16 + b3.toNat * 2 ^ 24 := by
  have h0 : b0.toNat < 2 ^ 8 := b0.isLt
  have h1 : b1.toNat < 2 ^ 8 := b1.isLt
  have h2 : b2.toNat < 2 ^ 8 := b2.isLt
  simp only [wordOfBytes, BitVec.toNat_append]
  rw [← Nat.shiftLeft_add_eq_or_of_lt h0, ← Nat.shiftLeft_add_eq_or_of_lt h1, ← Nat.shiftLeft_add_eq_or_of_lt h2]
  simp only [Nat.shiftLeft_eq]
  omega

/-- Settles O51: the four writes are at four offsets, and the word read puts four bytes side by side. -/
theorem wordViewLittleEndian : Obligations.WordViewLittleEndian := by
  intro s a w turn rest hheld haligned hfits
  have hbusy : s.busy = false := busy_of_held hheld
  have hp : decide (a % 4 = 0 ∧ a + 3 < 4 * s.maxPix) = true := decide_eq_true ⟨haligned, hfits⟩
  exact ⟨fun hevents => ⟨Memory.writeWord s.src a w, step_of_write hheld hevents hp hbusy rfl, Memory.read_writeWord _ _ _⟩,
    fun hevents => ⟨Memory.writeWord s.dst a w, step_of_write hheld hevents hp hbusy rfl, Memory.read_writeWord _ _ _⟩,
    fun hevents => ⟨_, step_of_provided hheld hevents hp hbusy, wordOfBytes_toNat _ _ _ _⟩,
    fun hevents => ⟨_, step_of_provided hheld hevents hp hbusy, wordOfBytes_toNat _ _ _ _⟩⟩

/-! ### `WAIT` (R56) -/

/-- `WAIT` on a block that is running a command returns what the command leaves, the replies and the read owed aside. -/
theorem waitDone_running {s : State} {i : Instr} (delay : Nat) (hbusy : s.busy = true) (hdecode : decode s.cmd = .legal i) :
    ∃ (t : State) (r : List Reply), exec i s = .next t ∧
      waitDone delay s = .returned t.status { t with replies := r, unread := false } := by
  obtain ⟨t, hexec⟩ := exists_exec_eq_next i s
  obtain ⟨r, hreturn⟩ := waitDone_busy delay hbusy hdecode hexec
  rw [← exec_events hexec] at hreturn
  exact ⟨t, r, hexec, hreturn⟩

/-- Settles O45: on a block that is not busy a `WAIT` is one read; on a busy one it ends with the command, or, `CMD` holding no
command, in a fault, which a legal state excludes. -/
theorem waitEndsOnBusyZero : Obligations.WaitEndsOnBusyZero := by
  refine ⟨fun s t delay w hwait => ?_, fun s delay i => waitDone_running delay, fun s delay hbusy => waitDone_idle hbusy delay,
    fun s delay h => ?_⟩
  · cases hbusy : s.busy with
    | false =>
      cases hwait.symm.trans (waitDone_idle hbusy delay)
      exact ⟨hbusy, hbusy, rfl⟩
    | true =>
      cases hdecode : decode s.cmd with
      | illegal why => cases hwait.symm.trans (waitDone_fault delay hbusy hdecode)
      | legal i =>
        obtain ⟨u, r, hexec, hreturn⟩ := waitDone_running delay hbusy hdecode
        cases hwait.symm.trans hreturn
        have hidle : u.busy = false := busy_of_exec hexec
        exact ⟨hidle, hidle, rfl⟩
  · cases hbusy : s.busy with
    | false => exact ⟨_, _, waitDone_idle hbusy delay⟩
    | true =>
      obtain ⟨i, hdecode, -⟩ := h.command hbusy
      obtain ⟨t, r, -, hreturn⟩ := waitDone_running delay hbusy hdecode
      exact ⟨_, _, hreturn⟩

end Sys2Proof.Machine
end

section
/-! The next state of each command, whole: what the procedure's specification lemmas say, with the frame. -/

namespace Sys2Proof.Machine

/-! ### The generator (R72, R73) -/

/-- Settles O21: `GINIT` is the re-seed and has no check. -/
theorem ginitReseeds : Obligations.GinitReseeds := exec_ginit

/-- Settles O23: each `GNEXT` is one draw, from the re-seed on. -/
theorem drawSequenceFromSeed : Obligations.DrawSequenceFromSeed := fun s k => execSeq_ginit_replicate_gnext k s

/-! ### Permutations (R80 to R88) -/

/-- Settles O26: the frame of `build` and its result at each index. -/
theorem pbuildLeavesPermutation : Obligations.PbuildLeavesPermutation := by
  intro s hcap
  refine ⟨(build s.pn.toNat s.accept).perm, ?_, build_read s.pn.toNat s.accept⟩
  rw [exec_pbuild hcap, build_frame]
  rfl

/-- Settles O30: the pass ascends, so the last index with an entry is the one that stays. -/
theorem pinvLeavesLastIndex : Obligations.PinvLeavesLastIndex := by
  intro s hcap hrange
  refine ⟨(invert s.pn.toNat s.accept).inv, ?_, fun i hi hlast => ?_, fun t hmiss => invert_read_miss (s := s.accept) hmiss⟩
  · rw [exec_pinv hcap hrange, invert_frame]
    rfl
  · exact invert_read_hit (s := s.accept) hi rfl fun j hij hj he => hlast j hij hj (BitVec.eq_of_toNat_eq he)

/-- Settles O32: what `PBUILD` leaves is a bijection in range, so `PINV` accepts it and inverts it. -/
theorem pinvAfterPbuildIsInverse : Obligations.PinvAfterPbuildIsInverse := by
  intro s hcap
  let t := (build s.pn.toNat s.accept).complete
  have hframe : t.pn = s.pn ∧ t.cap = s.cap := by
    show (build s.pn.toNat s.accept).pn = s.pn ∧ (build s.pn.toNat s.accept).cap = s.cap
    rw [build_frame]
    exact ⟨rfl, rfl⟩
  obtain ⟨hpn, hcap'⟩ := hframe
  have hperm : Set.BijOn (fun i => (t.accept.readPerm i).toNat) (Set.Iio t.pn.toNat) (Set.Iio t.pn.toNat) :=
    hpn ▸ build_bijOn s.pn.isLt.le s.accept
  have hinv := invert_invOn hperm t.pn.isLt.le
  refine ⟨t, _, exec_pbuild hcap, exec_pinv (s := t) (hpn ▸ hcap' ▸ hcap) (fun i hi => hperm.mapsTo hi), ?_, ?_, fun i hi => ?_⟩
  · rw [invert_frame]
    rfl
  · rw [invert_frame]
    rfl
  · rw [← hpn] at hi
    simp only [readPerm_complete, invert_readPerm]
    exact ⟨hinv.1 hi, hinv.2 hi⟩

/-! ### Byte commands (R90 to R93) -/

theorem key8_toNat (s : State) : s.key8.toNat = s.seed.toNat % 256 := by
  simp [State.key8, BitVec.extractLsb'_toNat]

/-- Settles O33: the byte function is the exclusive or itself. -/
theorem xorCommandResult : Obligations.XorCommandResult := fun _ alpha hready => (runsBytePass_xor alpha).result hready

theorem RunsBytePass.result_of_eq {i : Instr} {f : Byte → Byte → Byte} {alpha : Bool} (hi : RunsBytePass i f alpha) {s : State}
    (hready : s.transformReady) {g : Byte → Byte} (hg : ∀ b, f s.key8 b = g b) :
    ∃ d : Memory Byte, exec i s = .next { s with dst := d, status := statusDone, unread := true } ∧
      ∀ a, Memory.read d a =
        if a < s.buflen.toNat then some (if a % 4 = 3 ∧ alpha = false then s.readSrc a else g (s.readSrc a))
        else Memory.read s.dst a := by
  obtain ⟨d, hexec, hread⟩ := hi.result hready
  refine ⟨d, hexec, fun a => ?_⟩
  rw [hread, byteOut, hg]

/-- Settles O34: the byte function is the exact sum, reduced. -/
theorem addEncryptCommandResult : Obligations.AddEncryptCommandResult := fun s alpha hready =>
  (runsBytePass_addE alpha).result_of_eq hready
    (g := fun b => BitVec.ofNat 8 ((b.toNat + s.seed.toNat % 256) % 256)) fun b => by rw [byteAdd, key8_toNat]

/-- R93 over the integers. -/
theorem byteSub_eq_ofInt (key b : Byte) : byteSub key b = BitVec.ofInt 8 (((b.toNat : Int) - key.toNat + 256) % 256) := by
  have hkey : key.toNat < 256 := key.isLt
  rw [byteSub, ← BitVec.ofInt_natCast]
  congr 1
  omega

/-- Settles O35: in the byte function 256 is added before the key is taken away, so natural and integer difference agree. -/
theorem addDecryptCommandResult : Obligations.AddDecryptCommandResult := fun s alpha hready =>
  (runsBytePass_addD alpha).result_of_eq hready
    (g := fun b => BitVec.ofInt 8 (((b.toNat : Int) - (s.seed.toNat % 256 : Nat) + 256) % 256)) fun b => by
      rw [byteSub_eq_ofInt, key8_toNat]

/-! ### Shuffles (R100 to R102) -/

/-- Settles O38: the permutation and the draws are those of `build`, the pixels those of the gather. -/
theorem shuffleEncryptResult : Obligations.ShuffleEncryptResult := by
  intro s hready
  refine ⟨(build s.pixelCount s.accept).perm, (shuffleEncrypt s.pixelCount s.accept).dst, ?_,
    build_read s.pixelCount s.accept, fun a => ?_⟩
  · rw [exec_shufE hready, shuffleEncrypt_frame]
    rfl
  · rw [shuffleEncrypt_read (pixelCount_le s), four_mul_pixelCount hready]
    rfl

/-- Settles O39: `INV` is the inverse pass on what `build` left, and the gather goes through it. -/
theorem shuffleDecryptResult : Obligations.ShuffleDecryptResult := by
  intro s hready
  have hn : s.pixelCount ≤ 2 ^ 32 := pixelCount_le s
  refine ⟨(build s.pixelCount s.accept).perm, (invert s.pixelCount (build s.pixelCount s.accept)).inv,
    (shuffleDecrypt s.pixelCount s.accept).dst, ?_, build_read s.pixelCount s.accept,
    fun j hj => invert_build_read hn s.accept hj, fun i hi => invert_build_read_above hn s.accept hi,
    fun j hj c hc => shuffleDecrypt_read hn s.accept hj hc,
    fun a ha => shuffleDecrypt_read_above s.accept ((four_mul_pixelCount hready).trans_le ha), fun i => permutationOf_surj⟩
  rw [exec_shufD hready, shuffleDecrypt_frame]
  rfl

/-! ### What the output of a transform depends on (R116) -/

/-- On two states with the same operands and source bytes command `i` completes and writes the same output. -/
def DependsOnOperands (i : Instr) : Prop :=
  ∀ {s₁ s₂ : State}, s₁.transformReady → SameOperands s₁ s₂ → (∀ a < s₁.buflen.toNat, s₁.readSrc a = s₂.readSrc a) →
    ∃ t₁ t₂ : State, exec i s₁ = .next t₁ ∧ exec i s₂ = .next t₂ ∧ t₁.status = t₂.status ∧
      ∀ a < s₁.buflen.toNat, ∃ b, Memory.read t₁.dst a = some b ∧ Memory.read t₂.dst a = some b

/-- A byte pass reads at each offset the source byte there. -/
theorem RunsBytePass.dependsOnOperands {i : Instr} {f : Byte → Byte → Byte} {alpha : Bool} (hi : RunsBytePass i f alpha) :
    DependsOnOperands i := by
  intro s₁ s₂ hready hsame hsrc
  obtain ⟨d₁, hexec₁, hread₁⟩ := hi.result hready
  obtain ⟨d₂, hexec₂, hread₂⟩ := hi.result (hsame.transformReady hready)
  refine ⟨_, _, hexec₁, hexec₂, rfl, fun a ha => ⟨byteOut (f s₁.key8) alpha s₁ a, ?_, ?_⟩⟩
  · rw [hread₁, if_pos ha]
  · have hkey : s₂.key8 = s₁.key8 := by rw [State.key8, hsame.seed, State.key8]
    rw [hread₂, hsame.buflen, if_pos ha, hkey, byteOut, byteOut, hsrc a ha]

/-- `SHUF.E` reads at each offset a byte of the source pixel the permutation names. -/
theorem shufE_dependsOnOperands : DependsOnOperands .shufE := by
  intro s₁ s₂ hready hsame hsrc
  obtain ⟨m₁, d₁, hexec₁, -, hread₁⟩ := shuffleEncryptResult s₁ hready
  obtain ⟨m₂, d₂, hexec₂, -, hread₂⟩ := shuffleEncryptResult s₂ (hsame.transformReady hready)
  refine ⟨_, _, hexec₁, hexec₂, rfl, fun a ha =>
    ⟨s₁.readSrc (4 * permutationOf s₁.pixelCount s₁.seed (a / 4) + a % 4), ?_, ?_⟩⟩
  · rw [hread₁, if_pos ha]
  · have hlen := four_mul_pixelCount hready
    have hpixel : permutationOf s₁.pixelCount s₁.seed (a / 4) < s₁.pixelCount := permutationOf_lt (by omega)
    rw [hread₂, hsame.buflen, if_pos ha, hsame.pixelCount, hsame.seed, hsrc _ (by omega)]

/-- Every output byte of `SHUF.D` is a byte of some source pixel, moved with it. -/
theorem shufD_dependsOnOperands : DependsOnOperands .shufD := by
  intro s₁ s₂ hready hsame hsrc
  obtain ⟨m₁, v₁, d₁, hexec₁, -, -, -, hread₁, -, hsurj⟩ := shuffleDecryptResult s₁ hready
  obtain ⟨m₂, v₂, d₂, hexec₂, -, -, -, hread₂, -, -⟩ := shuffleDecryptResult s₂ (hsame.transformReady hready)
  rw [hsame.pixelCount, hsame.seed] at hread₂
  refine ⟨_, _, hexec₁, hexec₂, rfl, fun a ha => ?_⟩
  have hlen := four_mul_pixelCount hready
  obtain ⟨j, hj, hplace⟩ := hsurj (a / 4) (by omega)
  have hoffset : 4 * permutationOf s₁.pixelCount s₁.seed j + a % 4 = a := by rw [hplace, Nat.div_add_mod]
  have hc : a % 4 < 4 := Nat.mod_lt a (by decide)
  have hout₁ := hread₁ j hj (a % 4) hc
  have hout₂ := hread₂ j hj (a % 4) hc
  rw [hoffset] at hout₁ hout₂
  rw [← hsrc _ (by omega)] at hout₂
  exact ⟨s₁.readSrc (4 * j + a % 4), hout₁, hout₂⟩

/-- Settles O42: for each command, what it writes is said in terms of the operands and the source bytes. -/
theorem transformDependsOnOperandsOnly : Obligations.TransformDependsOnOperandsOnly := by
  intro s₁ s₂ alpha i hi hseed hbuflen hcap hsrc hready
  have hdepends : DependsOnOperands i := by
    simp only [List.mem_cons, List.not_mem_nil, or_false] at hi
    rcases hi with rfl | rfl | rfl | rfl | rfl
    · exact (runsBytePass_xor alpha).dependsOnOperands
    · exact (runsBytePass_addE alpha).dependsOnOperands
    · exact (runsBytePass_addD alpha).dependsOnOperands
    · exact shufE_dependsOnOperands
    · exact shufD_dependsOnOperands
  obtain ⟨t₁, t₂, hexec₁, hexec₂, hstatus, hout⟩ := hdepends hready ⟨hseed.symm, hbuflen.symm, hcap.symm⟩ hsrc
  refine ⟨t₁, t₂, hexec₁, hexec₂, hstatus, fun a ha => ?_⟩
  obtain ⟨b, hb₁, hb₂⟩ := hout a ha
  rw [hb₁, hb₂]
  exact ⟨rfl, rfl⟩

end Sys2Proof.Machine
end

section
/-! The driver's functions (45_transform_engine.md R117 to R120). Each loads its arguments, issues one command, waits and, when
the command was accepted, reads the result; what it returns is then what the command's result says of the loaded state. -/

namespace Sys2Proof.Machine

/-! ### The checks of `transform` (R117) -/

theorem exists_requestInstr {op : Operation} (hop : ∀ v, op ≠ .unsupported v) (direction : Direction) (alpha : Bool) :
    ∃ i, requestInstr op direction alpha = some i := by
  cases op with
  | xor => exact ⟨_, rfl⟩
  | add | shuffle => cases direction <;> exact ⟨_, rfl⟩
  | unsupported v => exact absurd rfl (hop v)

theorem exists_requestWord {op : Operation} (hop : ∀ v, op ≠ .unsupported v) (direction : Direction) (alpha : Bool) :
    ∃ w, requestWord op direction alpha = some w := by
  obtain ⟨i, hi⟩ := exists_requestInstr hop direction alpha
  exact (requestWord_of_requestInstr hi).imp fun _ hw => hw.1

theorem decode_of_requestWord {op : Operation} {direction : Direction} {alpha : Bool} {i : Instr} {w : Word}
    (hi : requestInstr op direction alpha = some i) (hw : requestWord op direction alpha = some w) : decode w = .legal i := by
  obtain ⟨w', hw', hdecode⟩ := requestWord_of_requestInstr hi
  cases hw.symm.trans hw'
  exact hdecode

section Checks
variable {delay : Nat} {buffer : List Byte} {req : Request} {s : State}

/-- Past check c1. -/
theorem transform_eq_of_requestWord {w : Word} (hw : requestWord req.operation req.direction req.includeAlpha = some w) :
    transform delay buffer req s =
      if req.operation = .shuffle ∧ req.key = [] then .invalid .emptyKey s
      else if buffer.length % 4 ≠ 0 then .invalid .lengthNotMultipleOf4 s
      else (readRegister .cap s).bind fun cap s =>
        if buffer.length / 4 > (replyWord cap).toNat then .invalid .tooLarge s
        else runTransform delay buffer (deriveSeed req.key) w s := by
  rw [transform, hw]

end Checks

/-- Settles O55: the checks are the branches of `transform` in their order. -/
theorem driverChecksInOrder : Obligations.DriverChecksInOrder := by
  intro s delay buffer req
  refine ⟨fun ⟨v, hv⟩ => ?_, fun hop hkey => ?_, fun hop hkey hlen => ?_, fun hop hkey hlen hheld hcap => ?_⟩
  · rw [transform, hv, requestWord]
  · obtain ⟨w, hw⟩ := exists_requestWord (op := req.operation) (by simp [hop]) req.direction req.includeAlpha
    rw [transform_eq_of_requestWord hw, if_pos ⟨hop, hkey⟩]
  · obtain ⟨w, hw⟩ := exists_requestWord hop req.direction req.includeAlpha
    rw [transform_eq_of_requestWord hw, if_neg fun h => hkey h.1 h.2, if_pos hlen]
  · obtain ⟨w, hw⟩ := exists_requestWord hop req.direction req.includeAlpha
    rw [transform_eq_of_requestWord hw, if_neg fun h => hkey h.1 h.2, if_neg (not_not.2 hlen), readRegister_eq hheld]
    exact if_pos hcap

/-! ### What the transforms return (R115, R117, R119) -/

section Output
variable {buffer : List Byte} {cap seed : Word} {loaded s₀ t : State} (h : loaded.Loaded s₀.cap buffer seed)
  (htakes : s₀.Takes buffer.length)
include h htakes

theorem State.Loaded.pixelCount : loaded.pixelCount = buffer.length / 4 := by
  rw [State.pixelCount, h.buflen_toNat htakes]

theorem RunsBytePass.output {i : Instr} {f : Byte → Byte → Byte} {alpha : Bool} (hi : RunsBytePass i f alpha)
    (hexec : exec i loaded = .next t) {k : Nat} (hk : k < buffer.length) :
    t.readDst k = if k % 4 = 3 ∧ alpha = false then buffer.getD k 0 else f (seed.extractLsb' 0 8) (buffer.getD k 0) := by
  obtain ⟨d, hresult, hread⟩ := hi.result (h.transformReady htakes)
  cases hexec.symm.trans hresult
  rw [State.readDst, hread, h.buflen_toNat htakes, if_pos hk, Option.getD_some, byteOut, h.src k hk, State.key8, h.seed]

theorem shufE_output (hexec : exec .shufE loaded = .next t) {k : Nat} (hk : k < buffer.length) :
    t.readDst k = buffer.getD (4 * permutationOf (buffer.length / 4) seed (k / 4) + k % 4) 0 := by
  obtain ⟨m, d, hresult, -, hread⟩ := shuffleEncryptResult loaded (h.transformReady htakes)
  cases hexec.symm.trans hresult
  have hwhole := htakes.whole
  have hpixel : permutationOf (buffer.length / 4) seed (k / 4) < buffer.length / 4 := permutationOf_lt (by omega)
  rw [State.readDst, hread, h.buflen_toNat htakes, if_pos hk, Option.getD_some, h.pixelCount htakes, h.seed,
    h.src _ (by omega)]

theorem shufD_output (hexec : exec .shufD loaded = .next t) {k : Nat} (hk : k < buffer.length) :
    ∃ j < buffer.length / 4, permutationOf (buffer.length / 4) seed j = k / 4 ∧
      t.readDst k = buffer.getD (4 * j + k % 4) 0 := by
  obtain ⟨m, v, d, hresult, -, -, -, hread, -, hsurj⟩ := shuffleDecryptResult loaded (h.transformReady htakes)
  cases hexec.symm.trans hresult
  rw [h.pixelCount htakes, h.seed] at hread hsurj
  have hwhole := htakes.whole
  obtain ⟨j, hj, hplace⟩ := hsurj (k / 4) (by omega)
  have hbyte := hread j hj (k % 4) (Nat.mod_lt k (by decide))
  rw [hplace, Nat.div_add_mod] at hbyte
  refine ⟨j, hj, hplace, ?_⟩
  rw [State.readDst, hbyte, Option.getD_some, h.src _ (by omega)]

/-- The command a request selects leaves in `DST` the bytes the request asks for. -/
theorem transformedBy_readDst {op : Operation} {direction : Direction} {alpha : Bool} {i : Instr}
    (hi : requestInstr op direction alpha = some i) (hexec : exec i loaded = .next t) {k : Nat} (hk : k < buffer.length) :
    transformedBy buffer op direction alpha seed k (t.readDst k) := by
  cases op with
  | unsupported => cases hi
  | xor =>
    cases hi
    exact (runsBytePass_xor alpha).output h htakes hexec hk
  | add =>
    cases direction with
    | encrypt =>
      cases hi
      refine ((runsBytePass_addE alpha).output h htakes hexec hk).trans ?_
      rw [byteAdd_eq]
    | decrypt =>
      cases hi
      refine ((runsBytePass_addD alpha).output h htakes hexec hk).trans ?_
      rw [byteSub_eq]
  | shuffle =>
    cases direction with
    | encrypt =>
      cases hi
      exact shufE_output h htakes hexec hk
    | decrypt =>
      cases hi
      exact shufD_output h htakes hexec hk

end Output

/-- A driver function returns the buffer that the request's operation, direction, `includeAlpha` and seed ask for. -/
theorem ReturnsOutput.transformedBy {op : Operation} {direction : Direction} {alpha : Bool} {i : Instr} {buffer : List Byte}
    {seed : Word} {s : State} {result : DriverResult (List Byte)} (h : ReturnsOutput i buffer seed s result)
    (htakes : s.Takes buffer.length) (hi : requestInstr op direction alpha = some i) :
    ∃ (out : List Byte) (t : State), result = .returned out t ∧ t.held = false ∧ out.length = buffer.length ∧
      ∀ k < buffer.length, Machine.transformedBy buffer op direction alpha seed k (out.getD k 0) := by
  obtain ⟨loaded, t, u, hloaded, hexec, hresult, hu, -⟩ := h
  refine ⟨_, u, hresult, hu.held, by simp, fun k hk => ?_⟩
  rw [dstBytes_getD hk]
  exact transformedBy_readDst hloaded htakes hi hexec hk

/-- Settles O56: `transform` returns the output of the command its request selects. -/
theorem transformReturnsReference : Obligations.TransformReturnsReference := by
  intro s delay buffer req hinv hheld hop hkey hwhole hfits
  obtain ⟨i, hi⟩ := exists_requestInstr hop req.direction req.includeAlpha
  have htakes : s.Takes buffer.length := ⟨hheld, hinv.capacity, hwhole, hfits⟩
  exact (transform_returnsOutput delay htakes hi hkey).transformedBy htakes hi

/-- `applyByteOp` runs the body of `transform` with the command of its operation and direction (for `XOR` the direction is an
ignored bit, which it leaves 0). -/
theorem applyByteOp_eq {op : Operation} (hop : op ∈ [Operation.xor, .add]) (delay : Nat) (buffer : List Byte)
    (direction : Direction) (key8 : Byte) (alpha : Bool) (s : State) :
    ∃ (i : Instr) (w : Word), requestInstr op direction alpha = some i ∧ decode w = .legal i ∧
      applyByteOp delay buffer op direction key8 alpha s = runTransform delay buffer (key8.setWidth 32) w s := by
  simp only [List.mem_cons, List.not_mem_nil, or_false] at hop
  rcases hop with rfl | rfl
  · exact ⟨.xor alpha, _, rfl, decode_encode (.xor alpha), rfl⟩
  · obtain ⟨i, hi⟩ := exists_requestInstr (op := .add) (by simp) direction alpha
    exact ⟨i, _, hi, decode_of_requestWord hi rfl, rfl⟩

theorem applyShuffle_eq (delay : Nat) (buffer : List Byte) (direction : Direction) (seed : Word) (s : State) :
    ∃ (i : Instr) (w : Word), requestInstr .shuffle direction false = some i ∧ decode w = .legal i ∧
      applyShuffle delay buffer direction seed s = runTransform delay buffer seed w s := by
  obtain ⟨i, hi⟩ := exists_requestInstr (op := .shuffle) (by simp) direction false
  exact ⟨i, _, hi, decode_of_requestWord hi rfl, rfl⟩

/-- Settles O58: both functions run the body of `transform`. -/
theorem unitFunctionsReturn : Obligations.UnitFunctionsReturn := by
  intro s delay buffer direction hinv hheld hwhole hfits
  have htakes : s.Takes buffer.length := ⟨hheld, hinv.capacity, hwhole, hfits⟩
  refine ⟨fun op key8 alpha hop => ?_, fun seed => ?_⟩
  · obtain ⟨i, w, hi, hdecode, heq⟩ := applyByteOp_eq hop delay buffer direction key8 alpha s
    rw [heq]
    exact (runTransform_returnsOutput delay _ htakes hdecode (check_of_requestInstr hi)).transformedBy htakes hi
  · obtain ⟨i, w, hi, hdecode, heq⟩ := applyShuffle_eq delay buffer direction seed s
    rw [heq]
    exact (runTransform_returnsOutput delay _ htakes hdecode (check_of_requestInstr hi)).transformedBy htakes hi

end Sys2Proof.Machine
end

section
/-! The driver's library functions and their failures (45_transform_engine.md R119, R120, 60_exceptions.md R136, R138). -/

namespace Sys2Proof.Machine

/-! ### A command and its wait, accepted or rejected -/

theorem failOnError_statusRejected {α : Type} (e : ErrorCause) (k : State → DriverResult α) (s : State) :
    failOnError (statusRejected e) k s = .invalid (causeOfEcode (errorCode e)) s := by
  have herr : statusErrBit (statusRejected e) = true := by cases e <;> decide
  have hcode : statusEcode (statusRejected e) = errorCode e := by cases e <;> decide
  rw [failOnError, if_pos herr, hcode]

section Command
variable {α : Type} {s : State} {w : Word} {i : Instr} (delay : Nat) (k : State → DriverResult α) (hheld : s.held = false)
  (hdecode : decode w = .legal i)
include hheld hdecode

/-- An accepted command: the driver goes on with what the command left, owing no read. -/
theorem commandAndWait_done {t : State} (hexec : exec i { s with cmd := w } = .next t) (hdone : t.status = statusDone) :
    ∃ u : State, commandAndWait delay w k s = k u ∧ u.held = false ∧ ∃ r, u = t.released.withWorld s.events r := by
  obtain ⟨r, hwait⟩ := commandAndWait_eq delay k hheld hdecode hexec
  rw [hdone, failOnError_statusDone] at hwait
  have hbusy : t.busy = false := busy_of_exec hexec
  exact ⟨_, hwait, held_released hbusy, r, rfl⟩

/-- A rejected command: the driver reports the cause, and only `CMD`, `STATUS` and the replies have changed. -/
theorem commandAndWait_rejected {e : ErrorCause} (hcheck : check i s = some e) :
    ∃ r, commandAndWait delay w k s = .invalid (causeOfEcode (errorCode e))
      { s with cmd := w, status := statusRejected e, replies := r, unread := false } := by
  have hexec : exec i { s with cmd := w } = .next (State.reject { s with cmd := w } e) :=
    exec_of_rejected ((check_cmd i s w).trans hcheck)
  obtain ⟨r, hwait⟩ := commandAndWait_eq delay k hheld hdecode hexec
  exact ⟨r, hwait.trans (failOnError_statusRejected e k _)⟩

end Command

/-! ### The generator (R72, R120) -/

theorem makeGenerator_eq {s : State} (delay : Nat) (seed : Word) (hheld : s.held = false) :
    ∃ t, makeGenerator delay seed s = .returned () t ∧ t.held = false ∧ t.x = seed := by
  obtain ⟨t, hwait, ht, r, hr⟩ := commandAndWait_done (s := { s with seed := seed }) delay (fun s => .returned () s) hheld
    (decode_encode .ginit) (exec_ginit _) rfl
  refine ⟨t, ?_, ht, congrArg State.x hr⟩
  rw [makeGenerator, writeRegister_seed hheld]
  exact hwait

theorem nextDraw_eq {s : State} (delay : Nat) (hheld : s.held = false) :
    ∃ t, nextDraw delay s = .returned (xs32 s.x) t ∧ t.held = false ∧ t.x = xs32 s.x := by
  obtain ⟨t, hwait, ht, r, hr⟩ := commandAndWait_done delay
    (fun s => (readRegister .x s).bind fun r s => .returned (replyWord r) s) hheld (decode_encode .gnext) (exec_gnext _) rfl
  have hx : t.x = xs32 s.x := congrArg State.x hr
  refine ⟨t.withWorld t.events (t.replies ++ [.word t.x]), ?_, ht, hx⟩
  rw [nextDraw, hwait, readRegister_eq ht, ← hx]
  rfl

theorem nextDraws_eq (delays : List Nat) {s : State} (hheld : s.held = false) :
    ∃ t, nextDraws delays s = .returned ((List.range delays.length).map fun k => xs32^[k + 1] s.x) t := by
  induction delays generalizing s with
  | nil => exact ⟨s, rfl⟩
  | cons d ds ih =>
    obtain ⟨t, hdraw, ht, hx⟩ := nextDraw_eq d hheld
    obtain ⟨u, hrest⟩ := ih ht
    refine ⟨u, ?_⟩
    rw [nextDraws, hdraw]
    simp only [DriverResult.bind, hrest, hx, List.length_cons, List.range_succ_eq_map, List.map_cons, List.map_map]
    rfl

/-! ### Permutations (R80, R88, R120) -/

/-- `buildPermutation` loads its arguments, then runs `PBUILD`. -/
theorem buildPermutation_eq {s : State} (delay : Nat) (n seed : Word) (hheld : s.held = false) :
    buildPermutation delay n seed s =
      commandAndWait delay (encode .pbuild) (fetchEntries .perm 0 n.toNat) { s with seed := seed, pn := n } := by
  rw [buildPermutation, writeRegister_seed hheld]
  show (writeRegister .pn n { s with seed := seed }).bind _ = _
  rw [writeRegister_pn (s := { s with seed := seed }) hheld]
  rfl

theorem buildPermutation_returns {s : State} (delay : Nat) (n seed : Word) (hheld : s.held = false)
    (hfits : n.toNat ≤ s.cap.toNat) :
    ∃ t : State, t.held = false ∧ buildPermutation delay n seed s =
      .returned ((List.range n.toNat).map fun i => BitVec.ofNat 32 (permutationOf n.toNat seed i)) t := by
  let s₁ : State := { s with seed := seed, pn := n }
  obtain ⟨m, hexec, hread⟩ := pbuildLeavesPermutation { s₁ with cmd := encode .pbuild } hfits
  obtain ⟨t, hwait, ht, r, hr⟩ :=
    commandAndWait_done (s := s₁) delay (fetchEntries .perm 0 n.toNat) hheld (decode_encode .pbuild) hexec rfl
  have hcap : t.maxPix = s.cap.toNat := by rw [hr]; rfl
  have hentry : ∀ i ∈ List.range n.toNat, t.readPerm i = BitVec.ofNat 32 (permutationOf n.toNat seed i) := fun i hi => by
    have hi' : i < n.toNat := List.mem_range.1 hi
    have hm : Memory.read t.perm i = some (BitVec.ofNat 32 (permutationOf n.toNat seed i)) := by
      rw [hr]
      exact (hread i).trans (if_pos hi')
    rw [State.readPerm, hm, Option.getD_some]
  obtain ⟨r', hfetch⟩ := fetchEntries_perm (n := n.toNat) (i := 0) ht (by omega)
  rw [← List.range_eq_range', List.map_congr_left hentry] at hfetch
  exact ⟨t.withWorld t.events r', ht, (buildPermutation_eq delay n seed hheld).trans (hwait.trans hfetch)⟩

/-- `invertPermutation` loads what has a place in `PERM`, then runs `PINV` on the whole length. -/
theorem invertPermutation_eq {s : State} (delay : Nat) (p : List Word) (hheld : s.held = false) (hlen : p.length < 2 ^ 32) :
    ∃ m : Memory Word, invertPermutation delay p s =
        commandAndWait delay (encode .pinv) (fetchEntries .inv 0 p.length)
          { s with perm := m, pn := BitVec.ofNat 32 p.length } ∧
      ∀ k, k < p.length → k < s.maxPix → Memory.read m k = some (p.getD k 0) := by
  have hload : 0 + (p.take s.maxPix).length ≤ s.maxPix := by simp
  obtain ⟨m, hloaded, hread⟩ := loadEntries_perm hheld hload
  refine ⟨m, ?_, fun k hk hfits => ?_⟩
  · rw [invertPermutation, if_neg hlen.not_ge, hloaded]
    show (writeRegister .pn _ { s with perm := m }).bind _ = _
    rw [writeRegister_pn (s := { s with perm := m }) hheld]
    rfl
  · have hk' : k < (p.take s.maxPix).length := by rw [List.length_take]; omega
    rw [hread, if_pos (by omega), Nat.sub_zero]
    simp [hk, hfits]

/-- A list of entries that is a permutation of `[0, n)`, as a function of the index. -/
theorem bijOn_of_perm_range {p : List Word} (hp : (p.map BitVec.toNat).Perm (List.range p.length)) :
    Set.BijOn (fun i => (p.getD i 0).toNat) (Set.Iio p.length) (Set.Iio p.length) := by
  have hentry (i : Nat) (hi : i < p.length) : (p.getD i 0).toNat = (p.map BitVec.toNat)[i]'(by simpa using hi) := by simp [hi]
  have hmaps : Set.MapsTo (fun i => (p.getD i 0).toNat) (Set.Iio p.length) (Set.Iio p.length) := fun i hi => by
    show (p.getD i 0).toNat < p.length
    rw [hentry i hi, ← List.mem_range]
    exact hp.subset (List.getElem_mem _)
  refine ((Set.finite_Iio p.length).injOn_iff_bijOn_of_mapsTo hmaps).1 fun i hi j hj hij => ?_
  have hnodup : (p.map BitVec.toNat).Nodup := hp.nodup_iff.2 List.nodup_range
  exact (hnodup.getElem_inj_iff).1 ((hentry i hi).symm.trans (Eq.trans hij (hentry j hj)))

theorem eq_ofNat_of_toNat_eq {w : Word} {n : Nat} (h : w.toNat = n) : w = BitVec.ofNat 32 n := by
  rw [← h, BitVec.ofNat_toNat, BitVec.setWidth_eq]

theorem map_range_getD {f : Nat → Word} {n k : Nat} (hk : k < n) : ((List.range n).map f).getD k 0 = f k := by
  simp [hk]

theorem invertPermutation_returns {s : State} (delay : Nat) {p : List Word} (hheld : s.held = false)
    (hfits : p.length ≤ s.cap.toNat) (hp : (p.map BitVec.toNat).Perm (List.range p.length)) :
    ∃ (v : List Word) (t : State), invertPermutation delay p s = .returned v t ∧ t.held = false ∧ v.length = p.length ∧
      ∀ i < p.length, v.getD (p.getD i 0).toNat 0 = BitVec.ofNat 32 i ∧ p.getD (v.getD i 0).toNat 0 = BitVec.ofNat 32 i := by
  have hlen : p.length < 2 ^ 32 := hfits.trans_lt s.cap.isLt
  obtain ⟨m, heq, hm⟩ := invertPermutation_eq delay p hheld hlen
  let loaded : State := { s with perm := m, pn := BitVec.ofNat 32 p.length }
  let issued : State := { loaded with cmd := encode .pinv }
  have hentry (i : Nat) (hi : i < p.length) : issued.accept.readPerm i = p.getD i 0 := by
    rw [readPerm_accept, State.readPerm, hm i hi (hi.trans_le hfits), Option.getD_some]
  have hperm : Set.BijOn (fun i => (issued.accept.readPerm i).toNat) (Set.Iio p.length) (Set.Iio p.length) :=
    (bijOn_of_perm_range hp).congr fun i hi => congrArg BitVec.toNat (hentry i hi).symm
  have hexec : exec .pinv issued = .next (invert p.length issued.accept).complete := by
    have hpn : issued.pn.toNat = p.length := Nat.mod_eq_of_lt hlen
    rw [← hpn] at hfits hperm ⊢
    exact exec_pinv hfits fun i hi => hperm.mapsTo hi
  obtain ⟨t, hwait, ht, r, hr⟩ :=
    commandAndWait_done (s := loaded) delay (fetchEntries .inv 0 p.length) hheld (decode_encode .pinv) hexec rfl
  have hcap : t.maxPix = s.cap.toNat := by rw [hr]; exact congrArg (fun u => u.cap.toNat) (invert_frame p.length issued.accept)
  have hinv (j : Nat) : t.readInv j = (invert p.length issued.accept).readInv j := by rw [hr]; rfl
  obtain ⟨r', hfetch⟩ := fetchEntries_inv (n := p.length) (i := 0) ht (by omega)
  have hinverse := invert_invOn hperm hlen.le
  have hbelow := (hperm.symm hinverse.symm).mapsTo
  rw [← List.range_eq_range'] at hfetch
  refine ⟨_, t.withWorld t.events r', heq.trans (hwait.trans hfetch), ht, by simp, fun i hi => ⟨?_, ?_⟩⟩
  · rw [← hentry i hi, map_range_getD (hperm.mapsTo hi), hinv]
    exact eq_ofNat_of_toNat_eq (hinverse.1 hi)
  · rw [map_range_getD hi, hinv, ← hentry _ (hbelow hi)]
    exact eq_ofNat_of_toNat_eq (hinverse.2 hi)

/-- Settles O59: each function returns what its command leaves in `X`, `PERM` or `INV`. -/
theorem libraryFunctionsReturn : Obligations.LibraryFunctionsReturn := by
  intro s delay _ hheld
  refine ⟨fun seed delays => ?_, fun n seed hfits => buildPermutation_returns delay n seed hheld hfits,
    fun p hfits hp => invertPermutation_returns delay hheld hfits hp⟩
  obtain ⟨t, hmake, ht, hx⟩ := makeGenerator_eq delay seed hheld
  obtain ⟨u, hdraws⟩ := nextDraws_eq delays ht
  exact ⟨t, u, hmake, hx ▸ hdraws⟩

/-! ### Rejections (R119, R120, R136, R138) -/

/-- A failed function owes no read and has left `X`, `DST`, `PERM` and `INV` as they were. -/
abbrev ResultsKept (s t : State) : Prop := t.held = false ∧ t.x = s.x ∧ t.dst = s.dst ∧ t.perm = s.perm ∧ t.inv = s.inv

/-- The body of `transform` loads what has a place in `SRC`, then runs its command on the whole length. -/
theorem runTransform_eq {s : State} {buffer : List Byte} (delay : Nat) (seed w : Word) (hheld : s.held = false)
    (hlen : buffer.length < 2 ^ 32) :
    ∃ m : Memory Byte, runTransform delay buffer seed w s =
      commandAndWait delay w (fetchBytes .dst 0 buffer.length)
        { s with src := m, buflen := BitVec.ofNat 32 buffer.length, seed := seed } := by
  have hload : 0 + (buffer.take (4 * s.maxPix)).length ≤ 4 * s.maxPix := by simp
  obtain ⟨m, hloaded, -⟩ := loadBytes_src hheld hload
  refine ⟨m, ?_⟩
  rw [runTransform, if_neg hlen.not_ge, hloaded]
  show (writeRegister .buflen _ { s with src := m }).bind _ = _
  rw [writeRegister_buflen (s := { s with src := m }) hheld]
  show (writeRegister .seed seed { s with src := m, buflen := _ }).bind _ = _
  rw [writeRegister_seed (s := { s with src := m, buflen := _ }) hheld]
  rfl

/-- The cause with which a transform of `len` bytes fails on a block of capacity `cap` (R138). -/
abbrev FailsWith (len cap : Nat) (cause : InvalidCause) : Prop :=
  (len % 4 ≠ 0 ∧ cause = .lengthNotMultipleOf4) ∨ (len % 4 = 0 ∧ len / 4 > cap ∧ cause = .tooLarge)

theorem causeOfHugeLength_eq {len cap : Nat} {cause : InvalidCause} (h : FailsWith len cap cause) :
    causeOfHugeLength len = cause := by
  rcases h with ⟨hlen, rfl⟩ | ⟨hlen, -, rfl⟩ <;> simp [causeOfHugeLength, hlen]

/-- The driver's cause is that of the block's check. -/
theorem exists_checkTransform_eq {s : State} {cause : InvalidCause} (h : FailsWith s.buflen.toNat s.cap.toNat cause) :
    ∃ e, checkTransform s = some e ∧ causeOfEcode (errorCode e) = cause := by
  rcases h with ⟨hlen, rfl⟩ | ⟨hlen, hcap, rfl⟩
  · exact ⟨.eLen4, checkTransform_eq_eLen4 hlen, rfl⟩
  · exact ⟨.eCap, checkTransform_eq_eCap hlen hcap, rfl⟩

theorem runTransform_rejected {s : State} {buffer : List Byte} {w : Word} {i : Instr} {cause : InvalidCause} (delay : Nat)
    (seed : Word) (hheld : s.held = false) (hdecode : decode w = .legal i) (hcheck : ∀ s, check i s = checkTransform s)
    (hcause : FailsWith buffer.length s.cap.toNat cause) :
    ∃ t, runTransform delay buffer seed w s = .invalid cause t ∧ ResultsKept s t := by
  rcases Nat.lt_or_ge buffer.length (2 ^ 32) with hlen | hhuge
  · obtain ⟨m, heq⟩ := runTransform_eq (buffer := buffer) delay seed w hheld hlen
    let loaded : State := { s with src := m, buflen := BitVec.ofNat 32 buffer.length, seed := seed }
    have hbuflen : loaded.buflen.toNat = buffer.length := Nat.mod_eq_of_lt hlen
    obtain ⟨e, hrejected, rfl⟩ := exists_checkTransform_eq (s := loaded) (hbuflen.symm ▸ hcause)
    obtain ⟨r, hwait⟩ := commandAndWait_rejected (s := loaded) delay (fetchBytes .dst 0 buffer.length) hheld hdecode
      ((hcheck loaded).trans hrejected)
    exact ⟨_, heq.trans hwait, held_false_iff.2 ⟨statusBusyBit_rejected e, rfl⟩, rfl, rfl, rfl, rfl⟩
  · rw [runTransform, if_pos hhuge, causeOfHugeLength_eq hcause]
    exact ⟨s, rfl, hheld, rfl, rfl, rfl, rfl⟩

theorem buildPermutation_rejected {s : State} {n : Word} (delay : Nat) (seed : Word) (hheld : s.held = false)
    (hcap : n.toNat > s.cap.toNat) :
    ∃ t, buildPermutation delay n seed s = .invalid .tooLarge t ∧ ResultsKept s t ∧ t.src = s.src := by
  let loaded : State := { s with seed := seed, pn := n }
  obtain ⟨r, hwait⟩ := commandAndWait_rejected (s := loaded) delay (fetchEntries .perm 0 n.toNat) hheld (decode_encode .pbuild)
    (checkLength_eq_eCap hcap)
  exact ⟨_, (buildPermutation_eq delay n seed hheld).trans hwait,
    ⟨held_false_iff.2 ⟨statusBusyBit_rejected .eCap, rfl⟩, rfl, rfl, rfl, rfl⟩, rfl⟩

/-- The check of `PINV` on a sequence loaded whole, or on what was loaded of one over the capacity. -/
theorem invertPermutation_rejected {s : State} {p : List Word} {e : ErrorCause} (delay : Nat) (hheld : s.held = false)
    (hlen : p.length < 2 ^ 32)
    (hcheck : ∀ t : State, t.pn.toNat = p.length → t.cap = s.cap →
      (∀ k, k < p.length → k < s.maxPix → t.readPerm k = p.getD k 0) → checkPinv t = some e) :
    ∃ t : State, invertPermutation delay p s = .invalid (causeOfEcode (errorCode e)) t ∧ t.held = false ∧ t.x = s.x ∧
      t.src = s.src ∧ t.dst = s.dst ∧ t.inv = s.inv := by
  obtain ⟨m, heq, hm⟩ := invertPermutation_eq delay p hheld hlen
  let loaded : State := { s with perm := m, pn := BitVec.ofNat 32 p.length }
  have hrejected : check .pinv loaded = some e := hcheck loaded (Nat.mod_eq_of_lt hlen) rfl fun k hk hfits => by
    rw [State.readPerm, hm k hk hfits, Option.getD_some]
  obtain ⟨r, hwait⟩ := commandAndWait_rejected (s := loaded) delay (fetchEntries .inv 0 p.length) hheld (decode_encode .pinv)
    hrejected
  exact ⟨_, heq.trans hwait, held_false_iff.2 ⟨statusBusyBit_rejected e, rfl⟩, rfl, rfl, rfl, rfl⟩

/-- Settles O60: each failure is the block's rejection of the loaded arguments, or comes before anything is loaded. -/
theorem libraryRejectionsReported : Obligations.LibraryRejectionsReported := by
  intro s delay _ hheld
  refine ⟨fun buffer direction op key8 alpha seed cause hop hcause => ⟨?_, ?_⟩, fun seed n hcap => ?_, fun p => ⟨fun hcap => ?_,
    fun hfits ⟨e, he, hrange⟩ => ?_⟩⟩
  · obtain ⟨i, w, hi, hdecode, heq⟩ := applyByteOp_eq hop delay buffer direction key8 alpha s
    rw [heq]
    exact runTransform_rejected delay _ hheld hdecode (check_of_requestInstr hi) hcause
  · obtain ⟨i, w, hi, hdecode, heq⟩ := applyShuffle_eq delay buffer direction seed s
    rw [heq]
    exact runTransform_rejected delay _ hheld hdecode (check_of_requestInstr hi) hcause
  · obtain ⟨t, hinvalid, ⟨ht, hx, hdst, hperm, hinv⟩, hsrc⟩ := buildPermutation_rejected delay seed hheld hcap
    exact ⟨t, hinvalid, ht, hx, hsrc, hdst, hperm, hinv⟩
  · rcases Nat.lt_or_ge p.length (2 ^ 32) with hlen | hhuge
    · exact invertPermutation_rejected (e := .eCap) delay hheld hlen fun t hpn ht _ =>
        checkPinv_eq_eCap (by rw [hpn, ht]; exact hcap)
    · rw [invertPermutation, if_pos hhuge]
      exact ⟨s, rfl, hheld, rfl, rfl, rfl, rfl⟩
  · have hlen : p.length < 2 ^ 32 := hfits.trans_lt s.cap.isLt
    obtain ⟨k, hk, rfl⟩ := List.getElem_of_mem he
    exact invertPermutation_rejected (e := .ePerm) delay hheld hlen fun t hpn ht hentry =>
      checkPinv_eq_ePerm (i := k) (by rw [hpn, ht]; exact hfits) (by rwa [hpn])
        (by rw [hentry k hk (hk.trans_le hfits), hpn, List.getD_eq_getElem _ _ hk]; exact hrange)

end Sys2Proof.Machine
end
